-- ==== Sys2Proof/Word.lean ====
section
/-! DEFINITION. The words of MHC (00_scope.md R3): a byte, a 32-bit lane, a 256-bit value and the eight lanes of the
working state. The widths are types, so a width mismatch cannot be written down (60_exceptions.md R153). -/

namespace Sys2Proof

/-- One message byte. -/
abbrev Byte := BitVec 8

/-- One lane, W = 32 bits (R3). -/
abbrev Lane := BitVec 32

/-- A 256-bit value: a block, an encoding source, a block output, a digest (R3). -/
abbrev Block := BitVec 256

/-- The working state as its eight lane registers, index 0 the most significant lane (10_state.md R11). -/
abbrev Lanes := Vector Lane 8

end Sys2Proof
end

