-- ==== Sys2Proof/Config.lean ====
section
/-! DEFINITION. What an MHC instance has fixed at build time (00_scope.md R4) and the free values of the model: constants
with no body, of which nothing can be proved beyond their types. -/

namespace Sys2Proof

/-- Layers per block pass (R3). -/
def Config.nLayers : Nat := 128

/-- Bytes per block (R3). -/
def Config.blockBytes : Nat := 32

/-- One less than the depth of the chain log; see `Config.logDepth`. -/
opaque Config.logDepthPred : Nat

/-- LOGDEPTH: "OPEN: a model argument, any integer >= 1" (R4, decision D15). At least 1, otherwise unknown.
DESIGN CHOICE, log 1 (safe). -/
def Config.logDepth : Nat := Config.logDepthPred + 1

/-- FREE VALUE: what the lanes hold once a pass is over or a reset has happened ("Between commands S is dead: its value is
unspecified", 10_state.md R12), one value for each draw. DESIGN CHOICE, log 2 (safe). -/
opaque Config.deadLanes : Nat → Lanes

/-- FREE VALUE: one less than the layer counter L once a pass is over or a reset has happened (10_state.md R13); the range
1..128 is kept. DESIGN CHOICE, log 2 (safe). -/
opaque Config.deadLayer : Nat → Fin 128

/-- FREE VALUE: the sublayer index s once a pass is over or a reset has happened (10_state.md R13). DESIGN CHOICE, log 2 (safe). -/
opaque Config.deadSub : Nat → Fin 2

end Sys2Proof
end

