-- ==== Sys2Proof/Machine/Constants.lean ====
section
/-! DEFINITION. The initialization vector of MHC. -/

namespace Sys2Proof

/-- The initialization vector: the value 10_state.md R14 fixes (decision D9), a named constant as R4 asks. -/
def Config.IV : Block := 0x428a2f9871374491b5c0fbcfe9b5dba53956c25b59f111f1923f82a4ab1c5ed5#256

end Sys2Proof
end

