-- ==== Sys2Proof/Syntax.lean ====
section
/-! DEFINITION. The abstract syntax: the four gates, the instructions (one constructor per row of spec/opcode_table.json), the
two encoded formats and the host's actions. -/

namespace Sys2Proof

/-- The four gate kinds, the "small closed tagged-variant (enum) of 4 cases" of 30_encoding.md R60. -/
inductive Gate where
  /-- Toffoli (40_gates.md R81). -/
  | tof
  /-- mirrored Toffoli (R82). -/
  | mtof
  /-- Fredkin (R83). -/
  | fre
  /-- mirrored Fredkin (R84). -/
  | mfre
  deriving DecidableEq, Repr

/-- An instruction: one of the four selector codes of format SEL (30_encoding.md R64) or one of the six host commands of
format CMD (R65). The gates carry no operand: where the triple sits is the sequencer's business (40_gates.md R80). -/
inductive Instr where
  /-- TOF (40_gates.md R81). -/
  | tof
  /-- MTOF (R82). -/
  | mtof
  /-- FRE (R83). -/
  | fre
  /-- MFRE (R84). -/
  | mfre
  /-- NOP (43_chunk_pipeline.md R124). -/
  | nop
  /-- RESET (R120). -/
  | reset
  /-- UPDATE with its message byte (R121). -/
  | update (b : Byte)
  /-- FINALIZE (R122). -/
  | finalize
  /-- INV_BEGIN (44_inverse.md R141). -/
  | invBegin
  /-- INV_STEP (R142). -/
  | invStep
  deriving DecidableEq, Repr

/-- The two encoded formats (30_encoding.md R60): 2 bits and 11 bits. -/
inductive Format where
  | sel
  | cmd
  deriving DecidableEq, Repr

/-- The format an instruction is encoded in (R64, R65). -/
def Instr.format : Instr → Format
  | .tof => .sel
  | .mtof => .sel
  | .fre => .sel
  | .mfre => .sel
  | .nop => .cmd
  | .reset => .cmd
  | .update _ => .cmd
  | .finalize => .cmd
  | .invBegin => .cmd
  | .invStep => .cmd

/-- The instruction a gate kind is (R64). -/
def Gate.instr : Gate → Instr
  | .tof => .tof
  | .mtof => .mtof
  | .fre => .fre
  | .mfre => .mfre

/-- An encoded instruction: a selector code of format SEL or a command word of format CMD (R60 to R62). -/
inductive Encoded where
  | sel (g : BitVec 2)
  | cmd (w : BitVec 11)
  deriving DecidableEq, Repr

/-- The fields of format CMD (R62). -/
structure CmdFields where
  /-- bits 10:8, the command opcode. -/
  op : BitVec 3
  /-- bits 7:0, the operand byte. -/
  data : Byte
  deriving DecidableEq, Repr

/-- What the host can do to an instance between two commands: present a command word (R62; 70_reset_and_hazards.md R176) or
assert the reset pin (R170). -/
inductive HostEvent where
  | cmd (w : BitVec 11)
  | rst
  deriving DecidableEq, Repr

end Sys2Proof
end

