-- ==== Sys2Proof/Machine/State.lean ====
section
/-! DEFINITION. The state of one MHC instance, all of it (10_state.md, 20_memory.md), its state after reset, and the reasons a
step can stop. -/

namespace Sys2Proof.Machine

/-- Why the machine stops. None of these is an error of the spec: ILLEGAL_CMD, STATE_ERR, LOG_UNAVAIL and PAD_ERR do not stop MHC,
they are latched in STATUS (60_exceptions.md R156, R157). Every one is safe: it stands for a read or a position the spec says does
not occur (10_state.md R24), and no run from reset meets it. -/
inductive Fault where
  /-- A BUF address outside 0..31 (20_memory.md R40). Raised by UPDATE in a state with BUFLEN above 31. Safe. -/
  | bufAddress
  /-- A read of a BUF byte not written since reset: "a model may make such a read a fault" (R48). Raised by UPDATE's block read and by
  FINALIZE. Safe. -/
  | bufUnwritten
  /-- FINALIZE with more than 31 live bytes, for which PADBLK is not defined (43_chunk_pipeline.md R115). Safe. -/
  | bufOverfull
  /-- A LOG address outside 0..LOGDEPTH-1 (20_memory.md R41). Raised by INV_STEP and by a selector fetch of its pass. Safe. -/
  | logAddress
  /-- A read of a LOG word not written since reset (R48). Raised by INV_STEP and by a selector fetch of its pass. Safe. -/
  | logUnwritten
  /-- INV_STEP, or a selector fetch of its pass, with ICUR outside the range R142 gives V for (10_state.md R24 item 2). Safe. -/
  | inverseCursor
  /-- A selector fetch inside a pass with the layer counter outside 1..128 (10_state.md R13). Safe. -/
  | layerRange
  deriving DecidableEq, Repr

/-- Why the model has no meaning for an instruction. -/
inductive Refusal where
  /-- Raised by an arm of `exec` whose instruction has no meaning yet; no arm is left so. Safe. -/
  | notModelled (mnemonic : String)
  deriving DecidableEq, Repr

/-- STATUS by its fields (10_state.md R19). -/
structure Status where
  /-- bit 0, FIN: the message has been finalized. -/
  fin : Bool
  /-- bit 1, IA: inverse path active. -/
  ia : Bool
  /-- bit 2, RV: RBLK and RCNT hold a recovered block. -/
  rv : Bool
  /-- bit 3, LOVF: chain log overflow. -/
  lovf : Bool
  /-- bit 4, ERR: an error has been raised since reset (sticky). -/
  err : Bool
  /-- bits 7:5, ERRCODE: code of the first error since reset, 0 if none. -/
  errcode : BitVec 3
  deriving DecidableEq, Repr

/-- STATUS = 0x00, its value after reset (R19, R25). -/
def Status.zero : Status :=
  { fin := false, ia := false, rv := false, lovf := false, err := false, errcode := 0#3 }

/-- The four errors; "a model's error type has four constructors and no others" (93_implementation_defined.md U18). -/
inductive ErrCode where
  | illegalCmd
  | stateErr
  | logUnavail
  | padErr
  deriving DecidableEq, Repr

/-- What the sequencer is doing: idle (then `cmd_ready` is 1, 70_reset_and_hazards.md R176) or inside the block pass of a command.
DEDUCED, log 9. -/
inductive Pass where
  | idle
  /-- a forward pass, of FINALIZE (`fin` true) or of UPDATE. -/
  | forward (fin : Bool)
  /-- the inverse pass of INV_STEP. -/
  | inverse
  deriving DecidableEq, Repr

/-- The state of one instance. -/
structure State where
  /-- S as its lanes x[0]..x[7] (10_state.md R11, R12). -/
  x : Lanes
  /-- L, the layer counter, 1..128 (R13). -/
  l : Nat
  /-- s, the sublayer index (R13). -/
  sub : Fin 2
  /-- what the sequencer is busy with (R13, R176). -/
  pass : Pass
  /-- E, the running encoding source (R15). -/
  e : Block
  /-- BUF, bytes by address (20_memory.md R40). -/
  buf : List Host.Cell
  /-- BUFLEN (10_state.md R16). -/
  buflen : Nat
  /-- LOG, 256-bit words by word address (20_memory.md R41). -/
  log : List (Nat × Block)
  /-- LOGDEPTH, the build-time depth of LOG; no step changes it (00_scope.md R4). -/
  logDepth : Nat
  /-- NBLK (10_state.md R17). -/
  nblk : Nat
  /-- ICUR (R18). -/
  icur : Nat
  /-- STATUS (R19). -/
  status : Status
  /-- RBLK (R21). -/
  rblk : Block
  /-- RCNT (R21). -/
  rcnt : Nat
  /-- what the host does next on the command port and the reset pin, first to come first (30_encoding.md R62, R70). -/
  input : List HostEvent
  /-- the MODEL's own: how many free values have been drawn (log 4). -/
  free : Nat
  deriving DecidableEq, Repr

/-- The state after reset of an instance whose log has depth `depth` (10_state.md R25; 70_reset_and_hazards.md R170). The spec gives S, L
and s no value: lanes 0, L = 1, s = 0 are DESIGN CHOICES, log 2 (unsafe); `free` = 0 is one too, log 4. -/
def State.resetWith (depth : Nat) : State :=
  { x := Vector.replicate 8 0#32
    l := 1
    sub := 0
    pass := .idle
    e := Config.IV
    buf := []
    buflen := 0
    log := []
    logDepth := depth
    nblk := 0
    icur := 0
    status := Status.zero
    rblk := 0#256
    rcnt := 0
    input := []
    free := 0 }

/-- The machine right after reset (R25), its log of the unknown depth `Config.logDepth` (log 1). -/
def State.reset : State := State.resetWith Config.logDepth

end Sys2Proof.Machine
end

