-- ==== Sys2Proof/Machine/Flags.lean ====
section
/-! DEFINITION. The STATUS fields: the 8-bit word the host reads and the writes the commands make (10_state.md R19, R22). MHC has no
other flag, and no gate, layer or network operation writes one (R22). -/

namespace Sys2Proof.Machine

/-- STATUS as its 8 bits: FIN bit 0, IA bit 1, RV bit 2, LOVF bit 3, ERR bit 4, ERRCODE bits 7:5 (R19). -/
def Status.word (t : Status) : BitVec 8 :=
  t.errcode ++ BitVec.ofBool t.err ++ BitVec.ofBool t.lovf ++ BitVec.ofBool t.rv ++ BitVec.ofBool t.ia ++ BitVec.ofBool t.fin

/-- BLOCKSTEP on a full log: `STATUS.LOVF <- 1` (43_chunk_pipeline.md R117). -/
def Status.overflowed (t : Status) : Status := { t with lovf := true }

/-- FINALIZE: `STATUS.FIN <- 1` (R122). -/
def Status.finalized (t : Status) : Status := { t with fin := true }

/-- INV_BEGIN: `STATUS.IA <- 1`, `STATUS.RV <- 0` (44_inverse.md R141). -/
def Status.armed (t : Status) : Status := { t with ia := true, rv := false }

/-- INV_STEP: `STATUS.RV <- 1` (R142). -/
def Status.recovered (t : Status) : Status := { t with rv := true }

end Sys2Proof.Machine
end

