-- ==== Sys2Proof/Machine/Gates.lean ====
section
/-! DEFINITION. The four gates as pure functions on a triple of bits (40_gates.md). -/

namespace Sys2Proof.Machine

/-- The ordered triple (a, b, c) a gate reads and returns (R80); a sits at the lowest lane bit, c at the highest (42_network.md R97). -/
structure Triple where
  a : Bool
  b : Bool
  c : Bool
  deriving DecidableEq, Repr

/-- TOF: `c' = c ^ (a & b)` (R81). -/
def gateTof (t : Triple) : Triple := { t with c := t.c ^^ (t.a && t.b) }

/-- MTOF: `a' = a ^ (b & c)` (R82). -/
def gateMtof (t : Triple) : Triple := { t with a := t.a ^^ (t.b && t.c) }

/-- FRE: if c = 1, swap a and b (R83). -/
def gateFre (t : Triple) : Triple := if t.c then { t with a := t.b, b := t.a } else t

/-- MFRE: if a = 1, swap b and c (R84, decision D8). -/
def gateMfre (t : Triple) : Triple := if t.a then { t with b := t.c, c := t.b } else t

/-- `GATE(g, (a,b,c))`, the dispatch over the four kinds (R85). -/
def gate : Gate → Triple → Triple
  | .tof => gateTof
  | .mtof => gateMtof
  | .fre => gateFre
  | .mfre => gateMfre

/-- The triple read in the opposite order, the mirroring of R82 and R84. -/
def Triple.reverse (t : Triple) : Triple := { a := t.c, b := t.b, c := t.a }

/-- The number of 1 bits of a triple (R87). -/
def Triple.ones (t : Triple) : Nat := t.a.toNat + t.b.toNat + t.c.toNat

end Sys2Proof.Machine
end

