-- ==== Sys2Proof/WellFormed.lean ====
section
/-! DEFINITION. Well-formedness. Every term of `Instr` is well formed by its type: the one operand that is encoded in a word,
UPDATE's byte, is 8 bits wide and every value of it is legal (30_encoding.md R63; 43_chunk_pipeline.md R121). What can be ill formed
is a raw command word (R66) and a host program (R61, R70). -/

namespace Sys2Proof

/-- `op` is one of the six defined opcodes: 110 and 111 are reserved (30_encoding.md R66). -/
def CmdFields.opDefined (f : CmdFields) : Bool := f.op.toNat < 6

/-- `data` is used by UPDATE (op 010) only and must be 0x00 in every other command (R62, R66). -/
def CmdFields.dataAllowed (f : CmdFields) : Bool := f.op == 2#3 || f.data == 0#8

/-- A legal command word's fields: "the following words are illegal: any word with op = 110 or 111 ..., and any word with op
in 000, 001, 011, 100, 101 and data not equal to 0x00" (R66). -/
def CmdFields.wf (f : CmdFields) : Bool := f.opDefined && f.dataAllowed

/-- The host presents commands only: "A SEL code is never presented by the host" (R61). -/
def Instr.hostIssued (i : Instr) : Bool := i.format == .cmd

/-- "A program is a sequence of commands" (R70). -/
def programWf (p : List Instr) : Bool := p.all Instr.hostIssued

end Sys2Proof
end

