-- ==== Sys2Proof/Decode.lean ====
section
/-! DEFINITION. The decoder, total on both formats and rejecting by name, and the encoder (30_encoding.md). -/

namespace Sys2Proof

/-- Why a command word is illegal (30_encoding.md R66). Both raise the one error ILLEGAL_CMD (60_exceptions.md R150). -/
inductive Illegal where
  /-- `op` is 110 or 111. -/
  | reservedOp (op : BitVec 3)
  /-- `data` is not 0x00 in a command without operand. -/
  | operandNotZero (op : BitVec 3) (data : Byte)
  deriving DecidableEq, Repr

/-- What a decoder answers: an instruction, or ILLEGAL with its reason (R67). -/
inductive Decoded where
  | instr (i : Instr)
  | illegal (why : Illegal)
  deriving DecidableEq, Repr

/-- The fields of a command word: `op` = bits 10:8, `data` = bits 7:0 (R62). -/
def cmdFields (w : BitVec 11) : CmdFields :=
  { op := w.extractLsb' 8 3, data := w.extractLsb' 0 8 }

/-- The gate a selector code names (R64; 40_gates.md R85: no fifth case and no default). -/
def gateOfCode (g : BitVec 2) : Gate :=
  if g.getLsbD 1 then (if g.getLsbD 0 then .mfre else .fre) else (if g.getLsbD 0 then .mtof else .tof)

/-- Format SEL: every one of the four values is a gate (R66). -/
def decodeSel (g : BitVec 2) : Instr := (gateOfCode g).instr

/-- A command without operand: legal when `data` is 0x00 (R66). -/
def decodeOperandless (i : Instr) (f : CmdFields) : Decoded :=
  if f.data = 0#8 then .instr i else .illegal (.operandNotZero f.op f.data)

/-- The CMD map on a word's fields (R65). -/
def decodeFields (f : CmdFields) : Decoded :=
  match f.op.toNat with
  | 0 => decodeOperandless .nop f
  | 1 => decodeOperandless .reset f
  | 2 => .instr (.update f.data)
  | 3 => decodeOperandless .finalize f
  | 4 => decodeOperandless .invBegin f
  | 5 => decodeOperandless .invStep f
  | _ => .illegal (.reservedOp f.op)

/-- Format CMD: total on all 2048 words (R67). -/
def decodeCmd (w : BitVec 11) : Decoded := decodeFields (cmdFields w)

/-- The decoder over both formats. -/
def decode : Encoded → Decoded
  | .sel g => .instr (decodeSel g)
  | .cmd w => decodeCmd w

/-- A command word from its fields, `op ‖ data` (R62). -/
def cmdWord (op : BitVec 3) (data : Byte) : BitVec 11 := op ++ data

/-- The encoder, from the two maps (R64, R65). -/
def encode : Instr → Encoded
  | .tof => .sel 0b00#2
  | .mtof => .sel 0b01#2
  | .fre => .sel 0b10#2
  | .mfre => .sel 0b11#2
  | .nop => .cmd (cmdWord 0b000#3 0#8)
  | .reset => .cmd (cmdWord 0b001#3 0#8)
  | .update b => .cmd (cmdWord 0b010#3 b)
  | .finalize => .cmd (cmdWord 0b011#3 0#8)
  | .invBegin => .cmd (cmdWord 0b100#3 0#8)
  | .invStep => .cmd (cmdWord 0b101#3 0#8)

/-- The encoded form in which `nbits` bits of the opcode table are read: a row of one byte is a 2-bit code of format SEL, a row
of two bytes an 11-bit word of format CMD. A number with a bit above its format's width is no encoding (none). DESIGN CHOICE, log 7. -/
def tableEncoded (nbits w : Nat) : Option Encoded :=
  if nbits ≤ 8 then
    if w < 4 then some (.sel (BitVec.ofNat 2 w)) else none
  else
    if w < 2048 then some (.cmd (BitVec.ofNat 11 w)) else none

/-- The instruction the decoder reads from a word numbered as spec/opcode_table.json numbers its rows. -/
def decodeTableWord (nbits w : Nat) : Option Instr :=
  match tableEncoded nbits w with
  | none => none
  | some c =>
    match decode c with
    | .instr i => some i
    | .illegal _ => none

end Sys2Proof
end

