-- ==== Sys2Proof/Machine/Operands.lean ====
section
/-! DEFINITION. Operand assembly: the selector generator, the lanes of a 256-bit value, and the order of bytes. The definitions that
00_scope.md R5 asks to be written over NL, W and NLAYERS take the widths as implicit arguments; MHC is the instantiation
(8, 32, 128). -/

namespace Sys2Proof.Machine

/-! ## Stream order and the selector generator (41_selector.md) -/

/-- Stream bit `k` of an N-bit value: `bit(v, N-1-k)` (00_scope.md R7). -/
def streamBit {N : Nat} (v : BitVec N) (k : Nat) : Bool := v.getLsbD (N - 1 - k)

/-- `CODE(E, i) = E[255-2i : 254-2i]` (41_selector.md R90), for an encoding source of any width N: `E[N-1-2i : N-2-2i]`. -/
def code {N : Nat} (e : BitVec N) (i : Nat) : BitVec 2 := e.extractLsb' (N - 2 - 2 * i) 2

/-- `SEL(E, L) = CODE(E, L-1)` (R91). -/
def sel {N : Nat} (e : BitVec N) (L : Nat) : BitVec 2 := code e (L - 1)

/-- The gate of layer L. -/
def layerGate {N : Nat} (e : BitVec N) (L : Nat) : Gate := gateOfCode (sel e L)

/-! ## Lanes (10_state.md R11) -/

/-- Lane n of an N-bit value cut into lanes of w bits, lane 0 most significant: `v[255-32n : 224-32n]` for MHC (R11). -/
def laneOf {N : Nat} (w : Nat) (v : BitVec N) (n : Nat) : BitVec w := v.extractLsb' (N - w * (n + 1)) w

/-- All the lanes of a value. -/
def lanesOf {N : Nat} (nl w : Nat) (v : BitVec N) : Vector (BitVec w) nl := Vector.ofFn fun n => laneOf w v n.val

/-- The value its lanes make, `x[0] ‖ x[1] ‖ ...` (R11). -/
def joinLanes {nl w : Nat} (N : Nat) (x : Vector (BitVec w) nl) : BitVec N :=
  x.toList.foldl (fun acc v => acc <<< w ||| v.setWidth N) 0#N

/-- A 256-bit value as the eight lanes of S (R11). -/
def splitBlock (v : Block) : Lanes := lanesOf 8 32 v

/-- The eight lanes of S as one value, `S = x[0] ‖ ... ‖ x[7]` (R11). -/
def joinBlock (x : Lanes) : Block := joinLanes 256 x

/-! ## Bytes (20_memory.md R43 to R45) -/

/-- Block assembly, first byte most significant (R44). -/
def blockOfBytes (bs : List Byte) : Block := bs.foldl (fun acc b => acc <<< 8 ||| b.setWidth 256) 0#256

/-- Byte j of a 256-bit value, `v[255-8j : 248-8j]` (R45). -/
def byteOf (v : Block) (j : Nat) : Byte := v.extractLsb' (248 - 8 * j) 8

/-- A 256-bit value shown as its 32 bytes (R45). -/
def bytesOf (v : Block) : List Byte := (List.range 32).map (byteOf v)

/-- Nibble k of a 256-bit value, `v[255-4k : 252-4k]` (R45). -/
def nibbleOf (v : Block) (k : Nat) : BitVec 4 := v.extractLsb' (252 - 4 * k) 4

/-- The lowercase hexadecimal digit of a nibble (R45). -/
def hexDigit (d : BitVec 4) : Char := Nat.digitChar d.toNat

/-- The 64 lowercase hexadecimal characters of a value, most significant first (R45). -/
def hexOf (v : Block) : List Char := (List.range 64).map fun k => hexDigit (nibbleOf v k)

end Sys2Proof.Machine
end

