-- ==== Sys2Proof/Machine/Network.lean ====
section
/-! DEFINITION. The gate network and its inverse as pure functions (42_network.md; 44_inverse.md R135, R137). Written over the number of
lanes `nl`, the lane width `w` and the number of layers, as 00_scope.md R5 asks; `NET` and `INVNET` are the instantiation (8, 32, 128). -/

namespace Sys2Proof.Machine

/-! ## Lane activity and wiring -/

/-- `ACTIVE(L, n)`, the zigzag (R96). -/
def active (L n : Nat) : Bool :=
  match L % 4 with
  | 0 => n % 2 == 0
  | 2 => n % 2 == 1
  | _ => true

/-- `TRIPLE_BASE(s, h, k) = 16h + 3k + s` (R97, decisions D6 and D7). -/
def tripleBase (s : Fin 2) (h k : Nat) : Nat := 16 * h + 3 * k + s.val

/-- The bases of the triples of pass s in a lane of w bits: h in 0..w/16-1, k in 0..4 (R97). -/
def tripleBases (w : Nat) (s : Fin 2) : List Nat :=
  (List.range (w / 16)).flatMap fun h => (List.range 5).map fun k => tripleBase s h k

/-! ## LANEPASS (R98) -/

/-- The triple with base bit t: `a = bit(w, t)`, `b = bit(w, t+1)`, `c = bit(w, t+2)` (R97). -/
def readTriple {w : Nat} (v : BitVec w) (t : Nat) : Triple :=
  { a := v.getLsbD t, b := v.getLsbD (t + 1), c := v.getLsbD (t + 2) }

/-- `bit(v, i) = b`, the other bits kept. -/
def setBit {w : Nat} (v : BitVec w) (i : Nat) (b : Bool) : BitVec w :=
  if b then v ||| 1#w <<< i else v &&& ~~~(1#w <<< i)

/-- The three bits of a triple written back at its base (R98). -/
def writeTriple {w : Nat} (v : BitVec w) (t : Nat) (x : Triple) : BitVec w :=
  setBit (setBit (setBit v t x.a) (t + 1) x.b) (t + 2) x.c

/-- `LANEPASS(g, s, w)`: the gate on every triple of pass s; every gate reads the original lane (R98). -/
def lanePass {w : Nat} (g : Gate) (s : Fin 2) (v : BitVec w) : BitVec w :=
  (tripleBases w s).foldl (fun v' t => writeTriple v' t (gate g (readTriple v t))) v

/-! ## SUBPASS, XORSTEP, LAYER, NET -/

/-- `SUBPASS(g, s, L, S)`: LANEPASS on every active lane (R99). -/
def subPass {nl w : Nat} (g : Gate) (s : Fin 2) (L : Nat) (x : Vector (BitVec w) nl) : Vector (BitVec w) nl :=
  Vector.ofFn fun n => if active L n.val then lanePass g s x[n] else x[n]

/-- `XORSTEP(S, E)`, lane by lane, all lanes, active or not (R100). -/
def xorStep {nl w : Nat} (x y : Vector (BitVec w) nl) : Vector (BitVec w) nl :=
  Vector.ofFn fun n => x[n] ^^^ y[n]

/-- `LAYER(S, E, L)`: pass 1, pass 2, XOR (R101). -/
def layer {nl w N : Nat} (x : Vector (BitVec w) nl) (e : BitVec N) (L : Nat) : Vector (BitVec w) nl :=
  xorStep (subPass (layerGate e L) 1 L (subPass (layerGate e L) 0 L x)) (lanesOf nl w e)

/-- Layers 1, 2, ..., n in that order (R106). -/
def layers {nl w N : Nat} (e : BitVec N) : Nat → Vector (BitVec w) nl → Vector (BitVec w) nl
  | 0, x => x
  | n + 1, x => layer (layers e n x) e (n + 1)

/-- A whole pass of an instantiation with `nl` lanes of `w` bits and `n` layers (R5, R106). -/
def netOn (nl w n : Nat) {N : Nat} (b e : BitVec N) : BitVec N := joinLanes N (layers e n (lanesOf nl w b))

/-- `NET(B, E)` (R95, R106). -/
def NET (b e : Block) : Block := netOn 8 32 Config.nLayers b e

/-! ## INVLAYER, INVNET (44_inverse.md) -/

/-- `INVLAYER(S, E, L)`: XOR, pass 2, pass 1 (R135, R136). -/
def invLayer {nl w N : Nat} (x : Vector (BitVec w) nl) (e : BitVec N) (L : Nat) : Vector (BitVec w) nl :=
  subPass (layerGate e L) 0 L (subPass (layerGate e L) 1 L (xorStep x (lanesOf nl w e)))

/-- Layers n, n-1, ..., 1 undone in that order (R137). -/
def invLayers {nl w N : Nat} (e : BitVec N) : Nat → Vector (BitVec w) nl → Vector (BitVec w) nl
  | 0, x => x
  | n + 1, x => invLayers e n (invLayer x e (n + 1))

/-- A whole inverse pass of an instantiation (R5, R137). -/
def invNetOn (nl w n : Nat) {N : Nat} (v e : BitVec N) : BitVec N := joinLanes N (invLayers e n (lanesOf nl w v))

/-- `INVNET(V, E)` (R137). -/
def INVNET (v e : Block) : Block := invNetOn 8 32 Config.nLayers v e

end Sys2Proof.Machine
end

