-- ==== Sys2Proof/Machine/Ops.lean ====
section
/-! DEFINITION. The named operations over the two memories, the registers and the error latch that the meanings share. -/

namespace Sys2Proof.Machine

/-! ## Memory in one canonical form

A memory is a list of (address, value) pairs, addresses strictly rising. An address that is not listed has not been written since
reset and has no value (20_memory.md R48; DESIGN CHOICE, log 3). -/

/-- What an unlisted address reads as: no value. -/
def Memory.unlisted {α : Type} : Option α := none

/-- The value at an address. -/
def Memory.read {α : Type} : List (Nat × α) → Nat → Option α
  | [], _ => Memory.unlisted
  | (b, v) :: m, a => if b = a then some v else Memory.read m a

/-- Write a value at an address, keeping the addresses strictly rising. -/
def Memory.write {α : Type} : List (Nat × α) → Nat → α → List (Nat × α)
  | [], a, v => [(a, v)]
  | (b, u) :: m, a, v =>
    if a < b then (a, v) :: (b, u) :: m
    else if a = b then (a, v) :: m
    else (b, u) :: Memory.write m a v

/-- Every listed address is at least `lo`, and they rise strictly. -/
def Memory.wfFrom {α : Type} : Nat → List (Nat × α) → Bool
  | _, [] => true
  | lo, (b, _) :: m => decide (lo ≤ b) && Memory.wfFrom (b + 1) m

/-- The canonical form: addresses strictly rising (an entry never equals what an unlisted address reads as, since that is no value). -/
def Memory.wf {α : Type} (m : List (Nat × α)) : Bool := Memory.wfFrom 0 m

/-- Every listed address lies below `n`. -/
def Memory.below {α : Type} (n : Nat) (m : List (Nat × α)) : Bool := m.all fun c => decide (c.1 < n)

/-! ## BUF and LOG (20_memory.md R40, R41, R48, R49) -/

/-- `MemWrite(BUF, a, 1, v)`, a in 0..31 (R40). -/
def State.bufWrite (s : State) (a : Nat) (v : Byte) : Except Fault State :=
  if a < Config.blockBytes then .ok { s with buf := Memory.write s.buf a v } else .error .bufAddress

/-- `MemRead(BUF, a, 1)`. -/
def State.bufRead (s : State) (a : Nat) : Except Fault Byte :=
  if a < Config.blockBytes then
    match Memory.read s.buf a with
    | some v => .ok v
    | none => .error .bufUnwritten
  else .error .bufAddress

/-- `n` bytes of BUF from address `a` up, in address order. -/
def State.bufBytes (s : State) : Nat → Nat → Except Fault (List Byte)
  | _, 0 => .ok []
  | a, n + 1 =>
    match s.bufRead a with
    | .error f => .error f
    | .ok v =>
      match s.bufBytes (a + 1) n with
      | .error f => .error f
      | .ok vs => .ok (v :: vs)

/-- The live bytes of BUF, those below BUFLEN (R40, R49: BUF partial read); PADBLK takes at most 31 of them
(43_chunk_pipeline.md R115). -/
def State.bufLive (s : State) : Except Fault (List Byte) :=
  if s.buflen < Config.blockBytes then s.bufBytes 0 s.buflen else .error .bufOverfull

/-- `MemWrite(LOG, a, 32, v)` for an address the caller has checked (R49: only if NBLK < LOGDEPTH). -/
def State.logWrite (s : State) (a : Nat) (v : Block) : State := { s with log := Memory.write s.log a v }

/-- `MemRead(LOG, a, 32)`, a in 0..LOGDEPTH-1 (R41). -/
def State.logRead (s : State) (a : Nat) : Except Fault Block :=
  if a < s.logDepth then
    match Memory.read s.log a with
    | some v => .ok v
    | none => .error .logUnwritten
  else .error .logAddress

/-! ## Free values -/

/-- S, L and s become dead: "unspecified; dead between commands" (10_state.md R12, R13, R25). Each takes a free value; log 2. -/
def State.dropPosition (s : State) : State :=
  { s with
    x := Config.deadLanes s.free
    l := (Config.deadLayer s.free).val + 1
    sub := Config.deadSub s.free
    free := s.free + 1 }

/-! ## Taking an error, and leaving it (60_exceptions.md R150, R156, R157) -/

/-- The code of an error (R150). -/
def ErrCode.code : ErrCode → BitVec 3
  | .illegalCmd => 1#3
  | .stateErr => 2#3
  | .logUnavail => 3#3
  | .padErr => 4#3

/-- `raise ERR(code)` (R156): the first error since reset is latched, nothing else is written, and the command ends. A second error
leaves ERRCODE as it is (R158). -/
def State.raiseErr (c : ErrCode) (s : State) : State :=
  if s.status.err then s else { s with status := { s.status with err := true, errcode := c.code } }

/-- The one effect of the RESET command and of the `rst` pin (10_state.md R25; 43_chunk_pipeline.md R120; 70_reset_and_hazards.md R170), which
is also the only way the latch is left (60_exceptions.md R157). BUF, LOG, S, L and s are unspecified afterwards: the memories list
nothing (log 3) and the position takes free values (log 2). A pass in progress is abandoned (R170). -/
def State.toReset (s : State) : State :=
  { s.dropPosition with
    pass := .idle
    e := Config.IV
    buf := []
    buflen := 0
    log := []
    nblk := 0
    icur := 0
    status := Status.zero
    rblk := 0#256
    rcnt := 0 }

end Sys2Proof.Machine
end

