-- ==== Sys2Proof/Machine/Sequencer.lean ====
section
/-! DEFINITION. The sequencer inside a block pass: the meanings of the four gate instructions and the order in which a pass runs them
(10_state.md R13; 42_network.md R99, R101; 44_inverse.md R135; 70_reset_and_hazards.md R173 to R177). -/

namespace Sys2Proof.Machine

/-! ## The gate instructions

A selector code applies its gate to every triple of every active lane at the sequencer's position (L, s): one sublayer pass (R99). It
touches nothing but S (40_gates.md R80) and cannot fail (R154). -/

/-- The lanes after one sublayer pass with gate g at the position (L, s). -/
def State.gateAt (g : Gate) (s : State) : State := { s with x := subPass g s.sub s.l s.x }

/-- TOF (40_gates.md R81; 42_network.md R99). -/
def execTof (s : State) : Host.Outcome State Fault Refusal := .next (s.gateAt .tof)

/-- MTOF (40_gates.md R82; 42_network.md R99). -/
def execMtof (s : State) : Host.Outcome State Fault Refusal := .next (s.gateAt .mtof)

/-- FRE (40_gates.md R83; 42_network.md R99). -/
def execFre (s : State) : Host.Outcome State Fault Refusal := .next (s.gateAt .fre)

/-- MFRE (40_gates.md R84; 42_network.md R99). -/
def execMfre (s : State) : Host.Outcome State Fault Refusal := .next (s.gateAt .mfre)

/-! ## The position -/

/-- S XORed with all of the encoding source (42_network.md R100). -/
def State.xorSource (src : Block) (s : State) : State := { s with x := xorStep s.x (splitBlock src) }

/-- What follows a sublayer pass. Forward: pass 1 is followed by pass 2, pass 2 by the XOR step and then, but for layer 128, by the next
layer (R101, R106). Inverse: pass 2 is followed by pass 1, pass 1 by the layer below, which begins with its XOR (R135, R137). -/
def State.advance (src : Block) (s : State) : State :=
  match s.pass with
  | .idle => s
  | .forward _ =>
    if s.sub = 0 then { s with sub := 1 }
    else if s.l < Config.nLayers then { s.xorSource src with l := s.l + 1, sub := 0 }
    else s.xorSource src
  | .inverse =>
    if s.sub = 1 then { s with sub := 0 }
    else if 1 < s.l then { s.xorSource src with l := s.l - 1, sub := 1 }
    else s

/-- The sublayer pass at this position is the last of the block pass (R13: "a pass ends after its last layer"). -/
def State.atEnd (s : State) : Bool :=
  match s.pass with
  | .idle => false
  | .forward _ => s.l == Config.nLayers && s.sub == 1
  | .inverse => s.l == 1 && s.sub == 0

/-- One sublayer pass: the selector code of layer L picks the gate (41_selector.md R91, R92), the gate is applied, the position moves on. -/
def State.subStep (src : Block) (s : State) : State := (s.gateAt (layerGate src s.l)).advance src

/-- `n` sublayer passes. -/
def State.subSteps (src : Block) : Nat → State → State
  | 0, s => s
  | n + 1, s => State.subSteps src n (s.subStep src)

/-- All the sublayer passes of a block pass, two in each layer, under one encoding source (R92, R175 (a)). -/
def State.runPass (src : Block) (s : State) : State := s.subSteps src (2 * Config.nLayers)

/-! ## Starting a pass -/

/-- S is loaded with a block at the start of a forward pass (10_state.md R12), at layer 1, pass 1. -/
def State.loadForward (fin : Bool) (b : Block) (s : State) : State :=
  { s with pass := .forward fin, x := splitBlock b, l := 1, sub := 0 }

/-- S is loaded with the value to invert at the start of an inverse pass (R12), at layer 128, un-XORed, pass 2 next (44_inverse.md R135). -/
def State.loadInverse (v ei : Block) (s : State) : State :=
  { s with pass := .inverse, x := xorStep (splitBlock v) (splitBlock ei), l := Config.nLayers, sub := 1 }

/-- The pass is over: the sequencer is idle again and the position is dead (10_state.md R12, R13). -/
def State.endPass (s : State) : State := { s.dropPosition with pass := .idle }

end Sys2Proof.Machine
end

