-- ==== Sys2Proof/Machine/Inverse.lean ====
section
/-! DEFINITION. The inverse path (44_inverse.md): removing the padding, inverting a whole chain, and the commands INV_BEGIN and INV_STEP. -/

namespace Sys2Proof.Machine

/-- `UNPAD(B)`: the count of message bytes in the last block, or none where R140 raises PAD_ERR: the last byte n is outside 1..32, or
some byte 32-n..31 differs from it. -/
def unpad (b : Block) : Option Nat :=
  let n := (byteOf b 31).toNat
  if n < 1 ∨ 32 < n then none
  else if ((bytesOf b).drop (32 - n)).all (· == byteOf b 31) then some (32 - n)
  else none

/-- The loop of R139, last block first: from the value to invert and the chain `[E_{N-1}, ..., E_0]` to `[B_{N-1}, ..., B_0]`. -/
def invertDown : Block → List Block → List Block
  | _, [] => []
  | v, ei :: es => INVNET v ei :: invertDown ei es

/-- `INVERT(D, [E_0, ..., E_{N-1}])`, the blocks `B_0, ..., B_{N-1}` (R139). -/
def INVERT (d : Block) (es : List Block) : List Block := (invertDown d es.reverse).reverse

/-- The value INV_STEP inverts (R142): the digest for the last block, else the next block's encoding source. -/
def State.inverseInput (s : State) : Except Fault Block :=
  if s.icur = s.nblk then .ok s.e
  else if s.icur < s.nblk then s.logRead s.icur
  else .error .inverseCursor

/-- The encoding source INV_STEP inverts under, `LOG[ICUR-1]` (R142). -/
def State.inverseSource (s : State) : Except Fault Block :=
  if s.icur = 0 then .error .inverseCursor else s.logRead (s.icur - 1)

/-- The count of message bytes in a recovered block (R142): UNPAD's for the last block, 32 for the others. -/
def State.recoveredCount (s : State) (r : Block) : Option Nat :=
  if s.icur = s.nblk then unpad r else some Config.blockBytes

/-- The end of an inverse pass (R142): PAD_ERR with nothing else written, or the recovered block and its count in RBLK and RCNT,
ICUR one lower and RV set. -/
def State.finishInverse (s : State) : State :=
  match s.recoveredCount (joinBlock s.x) with
  | none => s.endPass.raiseErr .padErr
  | some cnt =>
    { s.endPass with
      rblk := joinBlock s.x
      rcnt := cnt
      icur := s.icur - 1
      status := s.status.recovered }

/-- INV_BEGIN (R141), its checks in the order of 60_exceptions.md R155. -/
def execInvBegin (s : State) : Host.Outcome State Fault Refusal :=
  if s.status.fin = false then .next (s.raiseErr .stateErr)
  else if s.status.lovf then .next (s.raiseErr .logUnavail)
  else .next { s with icur := s.nblk, status := s.status.armed }

/-- INV_STEP (R142): one block, the last first. -/
def execInvStep (s : State) : Host.Outcome State Fault Refusal :=
  if s.status.ia = false ∨ s.icur = 0 then .next (s.raiseErr .stateErr)
  else
    match s.inverseInput with
    | .error f => .fault f
    | .ok v =>
      match s.inverseSource with
      | .error f => .fault f
      | .ok ei => .next ((s.loadInverse v ei).runPass ei).finishInverse

end Sys2Proof.Machine
end

