-- ==== Sys2Proof/Machine/Pipeline.lean ====
section
/-! DEFINITION. The chunk pipeline (43_chunk_pipeline.md): padding, the block step, the digest as a pure function, and the commands NOP,
RESET, UPDATE and FINALIZE. -/

namespace Sys2Proof.Machine

/-! ## Padding and the pure digest -/

/-- n bytes each of value n (R115). -/
def padBytes (n : Nat) : List Byte := List.replicate n (BitVec.ofNat 8 n)

/-- `PADBLK(r)` for at most 31 bytes (R115, decision D10). -/
def padBlk (r : List Byte) : List Byte := r ++ padBytes (Config.blockBytes - r.length)

/-- The padded message (R116). -/
def padMessage (m : List Byte) : List Byte := m ++ padBytes (Config.blockBytes - m.length % Config.blockBytes)

/-- The number of blocks of a message (R116). -/
def blockCount (m : List Byte) : Nat := m.length / Config.blockBytes + 1

/-- Bytes 32i..32i+31 of a byte sequence as a 256-bit value (R118; 20_memory.md R44). -/
def blockAt (p : List Byte) (i : Nat) : Block := blockOfBytes ((p.drop (Config.blockBytes * i)).take Config.blockBytes)

/-- `B_i`, block i of the padded message (R118). -/
def messageBlock (m : List Byte) (i : Nat) : Block := blockAt (padMessage m) i

/-- `E_i` of a message: `E_0 = IV`, `E_{i+1} = NET(B_i, E_i)` (R118). -/
def chainAt (m : List Byte) : Nat → Block
  | 0 => Config.IV
  | i + 1 => NET (messageBlock m i) (chainAt m i)

/-- `HASH(M) = E_N` (R118). -/
def HASH (m : List Byte) : Block := chainAt m (blockCount m)

/-! ## The block step -/

/-- The first half of BLOCKSTEP (R117): the encoding source of this block is logged when the log has room, else the overflow is noted;
then the pass is loaded. -/
def State.startBlock (fin : Bool) (b : Block) (s : State) : State :=
  if s.nblk < s.logDepth then
    ({ s.logWrite s.nblk s.e with nblk := s.nblk + 1 }).loadForward fin b
  else
    ({ s with status := s.status.overflowed }).loadForward fin b

/-- The end of a forward pass: `E <- ` the state after layer 128 (R117, 70_reset_and_hazards.md R175 (c)), then what the command does after
its BLOCKSTEP: `BUFLEN <- 0` for both (R121, R122), `STATUS.FIN <- 1` for FINALIZE (R122). -/
def State.finishForward (fin : Bool) (s : State) : State :=
  { s.endPass with
    e := joinBlock s.x
    buflen := 0
    status := if fin then s.status.finalized else s.status }

/-- `BLOCKSTEP(B)` (R117) and the end of the command it belongs to; all 128 layers use the E read before it is written. -/
def State.blockStep (fin : Bool) (b : Block) (s : State) : State :=
  ((s.startBlock fin b).runPass s.e).finishForward fin

/-! ## The commands -/

/-- NOP: "nothing; no state changes" (R124). -/
def execNop (s : State) : Host.Outcome State Fault Refusal := .next s

/-- RESET, legal in every state (R120; 10_state.md R25). -/
def execReset (s : State) : Host.Outcome State Fault Refusal := .next s.toReset

/-- UPDATE b (R121): STATE_ERR on a finalized instance, else the byte is appended, and the 32nd one is followed by the block step. -/
def execUpdate (b : Byte) (s : State) : Host.Outcome State Fault Refusal :=
  if s.status.fin then .next (s.raiseErr .stateErr)
  else
    match s.bufWrite s.buflen b with
    | .error f => .fault f
    | .ok s1 =>
      let s2 : State := { s1 with buflen := s1.buflen + 1 }
      if s2.buflen = Config.blockBytes then
        match s2.bufBytes 0 Config.blockBytes with
        | .error f => .fault f
        | .ok bs => .next (s2.blockStep false (blockOfBytes bs))
      else .next s2

/-- FINALIZE (R122): STATE_ERR on a finalized instance, else the live bytes are padded to one block and the block step runs. -/
def execFinalize (s : State) : Host.Outcome State Fault Refusal :=
  if s.status.fin then .next (s.raiseErr .stateErr)
  else
    match s.bufLive with
    | .error f => .fault f
    | .ok r => .next (s.blockStep true (blockOfBytes (padBlk r)))

end Sys2Proof.Machine
end

