-- ==== Sys2Proof/Machine/Dispatch.lean ====
section
/-! DEFINITION. The meaning of every instruction: one arm per constructor of `Instr`. -/

namespace Sys2Proof.Machine

def exec (i : Instr) (s : State) : Host.Outcome State Fault Refusal :=
  match i with
  | .tof => Sys2Proof.Machine.execTof s
  | .mtof => Sys2Proof.Machine.execMtof s
  | .fre => Sys2Proof.Machine.execFre s
  | .mfre => Sys2Proof.Machine.execMfre s
  | .nop => Sys2Proof.Machine.execNop s
  | .reset => Sys2Proof.Machine.execReset s
  | .update b => Sys2Proof.Machine.execUpdate b s
  | .finalize => Sys2Proof.Machine.execFinalize s
  | .invBegin => Sys2Proof.Machine.execInvBegin s
  | .invStep => Sys2Proof.Machine.execInvStep s

end Sys2Proof.Machine
end

