-- ==== Sys2Proof/Machine/Fetch.lean ====
section
/-! DEFINITION. Where the next instruction comes from: the command port between commands (30_encoding.md R62; 70_reset_and_hazards.md R176),
the encoding source inside a block pass (20_memory.md R52; 41_selector.md R91); and what follows a gate instruction. -/

namespace Sys2Proof.Machine

/-- What a step finds to do. -/
inductive Fetched where
  /-- idle and no command presented (`cmd_valid` = 0). -/
  | wait
  /-- the `rst` pin is asserted. -/
  | reset
  /-- a command was accepted. -/
  | command (i : Instr)
  /-- a command word was accepted that is illegal (30_encoding.md R66). -/
  | illegal (why : Illegal)
  /-- inside a pass: the gate of the selector code at L, and the encoding source of the pass. -/
  | gate (i : Instr) (src : Block)
  /-- inside a pass at a position no run reaches (log 10). -/
  | stuck (f : Fault)
  deriving DecidableEq, Repr

/-- The encoding source of the pass in progress (41_selector.md R92): E in a forward pass, `LOG[ICUR-1]` in an inverse one. -/
def State.passSource (s : State) : Except Fault Block :=
  match s.pass with
  | .inverse => s.inverseSource
  | _ => .ok s.e

/-- The selector fetch: the code of layer L, L in 1..128, cut from the encoding source (R91). -/
def State.fetchGate (s : State) : Fetched :=
  if 1 ≤ s.l ∧ s.l ≤ Config.nLayers then
    match s.passSource with
    | .error f => .stuck f
    | .ok src => .gate (decodeSel (sel src s.l)) src
  else .stuck .layerRange

/-- The command fetch: a word presented while `cmd_ready` is 1 is accepted (70_reset_and_hazards.md R176). -/
def fetchWord (w : BitVec 11) : Fetched :=
  match decodeCmd w with
  | .instr i => .command i
  | .illegal why => .illegal why

/-- What the machine does next. The reset pin comes before everything (R170); a command is accepted only by an idle sequencer (R176). -/
def State.fetch (s : State) : Fetched :=
  match s.input, s.pass with
  | .rst :: _, _ => .reset
  | .cmd w :: _, .idle => fetchWord w
  | [], .idle => .wait
  | _, .forward _ => s.fetchGate
  | _, .inverse => s.fetchGate

/-- The host's action has been taken. -/
def State.consume (s : State) : State := { s with input := s.input.tail }

/-- The end of a block pass. -/
def State.finishPass (s : State) : State :=
  match s.pass with
  | .idle => s
  | .forward fin => s.finishForward fin
  | .inverse => s.finishInverse

/-- What follows a gate instruction: the position moves on, and the last one of a pass ends it. -/
def State.afterGate (src : Block) (s : State) : State :=
  if s.atEnd then (s.advance src).finishPass else s.advance src

/-! ## Placing an instruction where a step fetches it (log 7) -/

/-- The host's actions without those that would reset the machine first. -/
def dropResets : List HostEvent → List HostEvent
  | .rst :: es => dropResets es
  | es => es

/-- The sequencer idle and the word presented on the command port. -/
def State.placeWord (s : State) (w : BitVec 11) : State :=
  { s with pass := .idle, input := .cmd w :: s.input }

/-- The sequencer at the first position of a forward pass, with the code of layer 1, `E[255:254]`, equal to g. -/
def State.placeCode (s : State) (g : BitVec 2) : State :=
  { s with
    pass := .forward false
    l := 1
    sub := 0
    e := g ++ s.e.extractLsb' 0 254
    input := dropResets s.input }

end Sys2Proof.Machine
end

