-- ==== Sys2Proof/Machine/Step.lean ====
section
/-! DEFINITION. One step of the machine. -/

namespace Sys2Proof.Machine

/-- One step. Between commands it takes one action of the host: a reset, a whole command (commands are atomic, 70_reset_and_hazards.md
R176), or an illegal word, which raises ILLEGAL_CMD (60_exceptions.md R150). Inside a block pass it runs one selector code (log 8). -/
def step (s : State) : Host.Outcome State Fault Refusal :=
  match s.fetch with
  | .wait => .next s
  | .reset => .next s.consume.toReset
  | .command i => exec i s.consume
  | .illegal _ => .next (s.consume.raiseErr .illegalCmd)
  | .gate i src =>
    match exec i s with
    | .next t => .next (t.afterGate src)
    | .fault f => .fault f
    | .refused r => .refused r
  | .stuck f => .fault f

/-- `s` with the instruction of `nbits` bits `w`, numbered as the opcode table numbers it, placed where `step` fetches next; a number that
is no encoding leaves `s` as it is. -/
def State.withFetchWord (s : State) (nbits w : Nat) : State :=
  match tableEncoded nbits w with
  | some (.sel g) => s.placeCode g
  | some (.cmd c) => s.placeWord c
  | none => s

end Sys2Proof.Machine
end

