-- ==== Sys2Proof/Machine/Ports.lean ====
section
/-! DEFINITION. The output ports, pure views of the state: reading one changes nothing (20_memory.md R48; 70_reset_and_hazards.md R176). The
counters are natural numbers in State; their ports have the widths the spec gives (DESIGN CHOICE, log 13, safe). The ports are
those R176 lists and `cmd_ready`; E and IV, which 10_state.md section 4 counts among the readable registers, have none (DESIGN CHOICE, log 15,
unsafe). -/

namespace Sys2Proof.Machine

/-- `cmd_ready`: the sequencer is idle (70_reset_and_hazards.md R171, R176). -/
def State.cmdReady (s : State) : Bool := s.pass == .idle

/-- STATUS, 8 bits (10_state.md R19). -/
def State.portStatus (s : State) : BitVec 8 := s.status.word

/-- DIGEST: E if FIN = 1, else zero (R20). It is the only port that shows E: E (R15) and IV (R14) get no port of their own, a point the spec leaves
open (DESIGN CHOICE, log 15, unsafe). -/
def State.portDigest (s : State) : Block := if s.status.fin then s.e else 0#256

/-- BUFLEN, 6 bits (R16). -/
def State.portBuflen (s : State) : BitVec 6 := BitVec.ofNat 6 s.buflen

/-- The width of NBLK and ICUR, `ceil(log2(LOGDEPTH+1))` bits (R17, R18). -/
def State.counterWidth (s : State) : Nat := Nat.log2 s.logDepth + 1

/-- NBLK (R17). -/
def State.portNblk (s : State) : BitVec s.counterWidth := BitVec.ofNat s.counterWidth s.nblk

/-- ICUR (R18). -/
def State.portIcur (s : State) : BitVec s.counterWidth := BitVec.ofNat s.counterWidth s.icur

/-- RBLK (R21). -/
def State.portRblk (s : State) : Block := s.rblk

/-- RCNT, 6 bits (R21). -/
def State.portRcnt (s : State) : BitVec 6 := BitVec.ofNat 6 s.rcnt

/-- `err`, a copy of STATUS.ERR (60_exceptions.md R160). -/
def State.portErr (s : State) : Bool := s.status.err

/-- `fin`, a copy of STATUS.FIN (R160). -/
def State.portFin (s : State) : Bool := s.status.fin

/-- The raw digest, 32 bytes (43_chunk_pipeline.md R125; 20_memory.md R45). -/
def State.rawDigest (s : State) : List Byte := bytesOf s.portDigest

/-- The hex digest, 64 lowercase digits (R125, R45). -/
def State.hexDigest (s : State) : List Char := hexOf s.portDigest

/-- The message bytes of the recovered block: the first RCNT bytes of RBLK (44_inverse.md R142). -/
def State.recoveredBytes (s : State) : List Byte := (bytesOf s.rblk).take s.rcnt

/-- Their offset in the message, `32 * ICUR` (R142). -/
def State.recoveredOffset (s : State) : Nat := Config.blockBytes * s.icur

end Sys2Proof.Machine
end

