-- ==== Sys2Proof/Machine/HostCalls.lean ====
section
/-! DEFINITION. What the host does with an instance: runs of commands, the textual form of a command, and the software calls of the source
as pseudo-instructions (30_encoding.md R70 to R77, R79; log 14). -/

namespace Sys2Proof.Machine

/-! ## Runs -/

/-- The commands of a program, one after the other (R70; 20_memory.md R50). -/
def runCommands : List Instr → State → Host.Outcome State Fault Refusal
  | [], s => .next s
  | i :: is, s =>
    match exec i s with
    | .next t => runCommands is t
    | .fault f => .fault f
    | .refused r => .refused r

/-- `n` steps of the machine. -/
def runSteps : Nat → State → Host.Outcome State Fault Refusal
  | 0, s => .next s
  | n + 1, s =>
    match step s with
    | .next t => runSteps n t
    | .fault f => .fault f
    | .refused r => .refused r

/-! ## Textual form (R70) -/

/-- A byte as its two lowercase hexadecimal digits, the more significant first (20_memory.md R45). -/
def byteHex (b : Byte) : List Char := [hexDigit (b.extractLsb' 4 4), hexDigit (b.extractLsb' 0 4)]

/-- A byte as `0x` and two hexadecimal digits. -/
def byteText (b : Byte) : String := "0x" ++ String.ofList (byteHex b)

/-- The textual form of a command; a gate code has none, since the host never presents one (R61). -/
def commandText : Instr → Option String
  | .tof => none
  | .mtof => none
  | .fre => none
  | .mfre => none
  | .nop => some "NOP"
  | .reset => some "RESET"
  | .update b => some ("UPDATE " ++ byteText b)
  | .finalize => some "FINALIZE"
  | .invBegin => some "INV_BEGIN"
  | .invStep => some "INV_STEP"

/-! ## Pseudo-instructions -/

/-- `update(b_0 ... b_{n-1})` (R71). -/
def callUpdate (bs : List Byte) : List Instr := bs.map .update

/-- `new(m)` (R72); `new()` is `callNew []`. -/
def callNew (m : List Byte) : List Instr := .reset :: callUpdate m

/-- The commands of `digest()`: FINALIZE if FIN = 0, else none (R73). -/
def callDigest (s : State) : List Instr := if s.status.fin then [] else [.finalize]

/-- The commands of `new_function(m)`: those of `new(m)`, then those of `digest()`, which finds FIN = 0 (R75). -/
def callNewFunction (m : List Byte) : List Instr := callNew m ++ [.finalize]

/-- `reset()` (R76). -/
def callReset : List Instr := [.reset]

/-- The command of `finalize()`, issued on a finalized instance too (R77). -/
def callFinalize : List Instr := [.finalize]

/-- A call as the host makes it: its commands, then what it returns, read from the ports of the state they leave. -/
def runReading {α : Type} (is : List Instr) (read : State → α) (s : State) : Host.Outcome (State × α) Fault Refusal :=
  match runCommands is s with
  | .next t => .next (t, read t)
  | .fault f => .fault f
  | .refused r => .refused r

/-- `digest()`: FINALIZE if FIN = 0; then the port DIGEST is read and its 32 bytes are returned (R73; 20_memory.md R45). -/
def runDigest (s : State) : Host.Outcome (State × List Byte) Fault Refusal := runReading (callDigest s) State.rawDigest s

/-- The rendering of bytes as hexadecimal characters, most significant byte first (R74). -/
def hexOfBytes (bs : List Byte) : List Char := bs.flatMap byteHex

/-- `hexdigest()`: `digest()`, then its 32 bytes rendered by host software (R74). -/
def runHexdigest (s : State) : Host.Outcome (State × List Char) Fault Refusal :=
  match runDigest s with
  | .next (t, bs) => .next (t, hexOfBytes bs)
  | .fault f => .fault f
  | .refused r => .refused r

/-- `finalize()`: FINALIZE, then a read of DIGEST (R77). -/
def runFinalize (s : State) : Host.Outcome (State × List Byte) Fault Refusal := runReading callFinalize State.rawDigest s

/-- `new_function(m)`: `new(m)`, then `digest()` (R75). -/
def runNewFunction (m : List Byte) (s : State) : Host.Outcome (State × List Byte) Fault Refusal :=
  match runCommands (callNew m) s with
  | .next t => runDigest t
  | .fault f => .fault f
  | .refused r => .refused r

/-- The host's store of recovered bytes with a run of bytes placed from an offset up (R79). -/
def placeBytes (m : List Host.Cell) : Nat → List Byte → List Host.Cell
  | _, [] => m
  | off, b :: bs => placeBytes (Memory.write m off b) (off + 1) bs

/-- The commands of `invert()` on an instance with NBLK blocks (R79). -/
def callInvert (s : State) : List Instr := .invBegin :: List.replicate s.nblk .invStep

/-- `n` repetitions of: INV_STEP, read RBLK, RCNT, ICUR, place the message bytes (R79). None when a step does not answer a next state. -/
def recoverBlocks : Nat → State → List Host.Cell → Option (State × List Host.Cell)
  | 0, s, m => some (s, m)
  | n + 1, s, m =>
    match exec .invStep s with
    | .next t => recoverBlocks n t (placeBytes m t.recoveredOffset t.recoveredBytes)
    | _ => none

/-- `invert()`: INV_BEGIN, then NBLK recoveries (R79). -/
def runInvert (s : State) : Option (State × List Host.Cell) :=
  match exec .invBegin s with
  | .next t => recoverBlocks t.nblk t []
  | _ => none

end Sys2Proof.Machine
end

