-- ==== Sys2Proof/Safety.lean ====
section
/-! DEFINITION. The invariants of the state at a command boundary (10_state.md R24), and what the machine knows of a message. -/

namespace Sys2Proof.Safety

open Sys2Proof.Machine

/-- The items of R24 that speak of no message, the ranges of the registers, and the canonical form of the two memories. -/
structure Regular (s : State) : Prop where
  /-- a command boundary: the sequencer is idle (70_reset_and_hazards.md R176). -/
  idle : s.pass = .idle
  /-- LOGDEPTH is at least 1 (00_scope.md R4). -/
  depth : 1 ≤ s.logDepth
  /-- L stays in its range (10_state.md R13). -/
  layerRange : 1 ≤ s.l ∧ s.l ≤ Config.nLayers
  /-- item 1. -/
  buflen : s.buflen ≤ 31
  /-- item 2. -/
  nblk : s.nblk ≤ s.logDepth
  icur : s.icur ≤ s.nblk
  /-- the range of RCNT (R21). -/
  rcnt : s.rcnt ≤ 32
  /-- item 4. -/
  fin : s.status.fin = true → 1 ≤ s.nblk ∧ s.buflen = 0
  /-- item 5. -/
  ia : s.status.ia = true → s.status.fin = true ∧ s.status.lovf = false
  /-- item 6. -/
  rv : s.status.rv = true → s.status.ia = true ∧ s.icur < s.nblk
  /-- item 7. -/
  err : s.status.err = false ↔ s.status.errcode = 0#3
  /-- PAD_ERR and the codes 5..7 are never produced (60_exceptions.md R150). -/
  errcode : s.status.errcode.toNat ≤ 3
  /-- what item 8 needs: the live bytes and words are written. -/
  bufLive : ∀ j, j < s.buflen → (Memory.read s.buf j).isSome
  logLive : ∀ i, i < s.nblk → (Memory.read s.log i).isSome
  /-- BUF and LOG are in canonical form and list no address that does not exist (20_memory.md R40, R41). -/
  bufWf : Memory.wf s.buf = true ∧ Memory.below Config.blockBytes s.buf = true
  logWf : Memory.wf s.log = true ∧ Memory.below s.logDepth s.log = true

/-- How many blocks of the message have been processed: all of them once it is finalized, else those that are full. -/
def blocksDone (m : List Byte) (s : State) : Nat :=
  if s.status.fin then blockCount m else m.length / Config.blockBytes

/-- Item 3 of R24 and the rest of what R119 and R143 carry: `m` is the message accepted since the last reset. -/
structure Follows (m : List Byte) (s : State) : Prop where
  /-- "BUF[0..BUFLEN-1] are the bytes of M after the last block boundary" (R119). -/
  buffered : s.status.fin = false → s.buflen = m.length % Config.blockBytes ∧
    ∀ j, j < s.buflen → Memory.read s.buf j = m[m.length - s.buflen + j]?
  /-- E is the output of the last block processed, or the IV (R24 item 3). -/
  source : s.e = chainAt m (blocksDone m s)
  /-- NBLK counts the blocks up to LOGDEPTH, and LOVF says that there were more (10_state.md R17). -/
  counted : s.nblk = min (blocksDone m s) s.logDepth ∧ s.status.lovf = decide (s.logDepth < blocksDone m s)
  /-- LOG[i] holds the encoding source used for block i (R24 item 3; 20_memory.md R41). -/
  logged : ∀ i, i < s.nblk → Memory.read s.log i = some (chainAt m i)
  /-- what a recovered block is (44_inverse.md R143). -/
  recovered : s.status.rv = true → s.rblk = messageBlock m s.icur ∧
    s.rcnt = if s.icur + 1 = s.nblk then m.length % Config.blockBytes else Config.blockBytes

/-- The invariant at every command boundary (R24). -/
def Inv (s : State) : Prop := Regular s ∧ ∃ m, Follows m s

/-- The two states agree in everything but the position S, L, s, which is dead between commands (10_state.md R12, R13). -/
def SameButPosition (s t : State) : Prop :=
  { s with x := t.x, l := t.l, sub := t.sub } = t

/-- The two states agree in everything but the error latch (60_exceptions.md R157). -/
def SameButLatch (s t : State) : Prop :=
  { s with status := { s.status with err := t.status.err, errcode := t.status.errcode } } = t

/-- `t` is `s` after an error of code `c` and nothing else: the first error since reset is latched, a later one changes nothing
(60_exceptions.md R156, R158). -/
def Latched (c : BitVec 3) (s t : State) : Prop :=
  (s.status.err = false → t = { s with status := { s.status with err := true, errcode := c } }) ∧
  (s.status.err = true → t = s)

/-- `bs` are the first bytes of BUF, all written. -/
def Buffered (s : State) (bs : List Byte) : Prop := ∀ j, j < bs.length → Memory.read s.buf j = bs[j]?

/-- The live registers hold their reset values and the memories list nothing (10_state.md R25). -/
def AtReset (s : State) : Prop :=
  s.pass = .idle ∧ s.e = Config.IV ∧ s.buflen = 0 ∧ s.nblk = 0 ∧ s.icur = 0 ∧
  s.status.fin = false ∧ s.status.ia = false ∧ s.status.rv = false ∧ s.status.lovf = false ∧
  s.status.err = false ∧ s.status.errcode = 0#3 ∧ s.rblk = 0#256 ∧ s.rcnt = 0 ∧ s.buf = [] ∧ s.log = []

/-- Lane n is active in layer L (42_network.md R96). -/
def LaneActive (L n : Nat) : Prop :=
  L % 4 = 1 ∨ L % 4 = 3 ∨ (L % 4 = 2 ∧ n % 2 = 1) ∨ (L % 4 = 0 ∧ n % 2 = 0)

/-- No reset is about to interrupt what the machine is doing. -/
def NoReset (s : State) : Prop := s.input.head? ≠ some .rst

end Sys2Proof.Safety
end

