-- ==== Sys2Proof/Certificates/Slice0/Obligations.lean ====
section
/-! DEFINITION. The statements for the provers. Each docstring names the rules of spec/ it rests on; OBLIGATIONS.json lists them. -/

open Sys2Proof Sys2Proof.Machine Sys2Proof.Safety

/-! ## Encodings -/

/-- Decoding and encoding agree in both directions, on both formats (30_encoding.md R64, R65): the words that decode to an instruction
are exactly the one that encodes it, with UPDATE's byte at every value. -/
def Obligations.DecodeEncodeAgree : Prop :=
  ∀ (i : Instr) (c : Encoded), decode c = .instr i ↔ encode i = c

/-- The CMD decoder by the match and mask pairs of the opcode table, total on the 2048 words (R65, R67). -/
def Obligations.CommandDecoderFollowsTable : Prop :=
  ∀ w : BitVec 11,
    (w &&& 0x7ff#11 = 0x000#11 → decodeCmd w = .instr .nop) ∧
    (w &&& 0x7ff#11 = 0x100#11 → decodeCmd w = .instr .reset) ∧
    (w &&& 0x700#11 = 0x200#11 → decodeCmd w = .instr (.update (w.setWidth 8))) ∧
    (w &&& 0x7ff#11 = 0x300#11 → decodeCmd w = .instr .finalize) ∧
    (w &&& 0x7ff#11 = 0x400#11 → decodeCmd w = .instr .invBegin) ∧
    (w &&& 0x7ff#11 = 0x500#11 → decodeCmd w = .instr .invStep) ∧
    (w ≠ 0x000#11 → w ≠ 0x100#11 → w &&& 0x700#11 ≠ 0x200#11 → w ≠ 0x300#11 → w ≠ 0x400#11 → w ≠ 0x500#11 →
      ∃ why, decodeCmd w = .illegal why)

/-- The illegal words of R66, by their number: op 6 or 7, or an op other than 2 with data; and every selector code is a gate. -/
def Obligations.IllegalWordsAreThoseOfTheMap : Prop :=
  (∀ w : BitVec 11, (∃ why, decodeCmd w = .illegal why) ↔
    (6 ≤ w.toNat / 256 ∨ (w.toNat / 256 ≠ 2 ∧ w.toNat % 256 ≠ 0))) ∧
  (∀ g : BitVec 2, ∃ k : Gate, decode (.sel g) = .instr k.instr)

/-- A few words written out from the spec's encodings (R64, R65; vector V-DEC-1). A sanity statement. -/
def Obligations.WordsOfTheSpecDecode : Prop :=
  decode (.sel 0b00#2) = .instr .tof ∧ decode (.sel 0b01#2) = .instr .mtof ∧
  decode (.sel 0b10#2) = .instr .fre ∧ decode (.sel 0b11#2) = .instr .mfre ∧
  decode (.cmd 0b00000000000#11) = .instr .nop ∧ decode (.cmd 0b00100000000#11) = .instr .reset ∧
  decode (.cmd 0b01001001000#11) = .instr (.update 0x48#8) ∧ decode (.cmd 0b01100000000#11) = .instr .finalize ∧
  decode (.cmd 0b10000000000#11) = .instr .invBegin ∧ decode (.cmd 0b10100000000#11) = .instr .invStep

/-! ## Gates (40_gates.md) -/

/-- The four gates (R81 to R84) and their selector codes (R85): the formula of each, its truth table from input abc to output a'b'c', MTOF and MFRE
as TOF and FRE with the triple read in the opposite order, and that FRE and MFRE never change the number of 1 bits. -/
def Obligations.GateTruthTables : Prop :=
  let row (g : Gate) (n : Nat) : Nat :=
    let r := gate g { a := n.testBit 2, b := n.testBit 1, c := n.testBit 0 }
    4 * r.a.toNat + 2 * r.b.toNat + r.c.toNat
  (gateOfCode 0b00#2 = .tof ∧ gateOfCode 0b01#2 = .mtof ∧ gateOfCode 0b10#2 = .fre ∧ gateOfCode 0b11#2 = .mfre) ∧
  (∀ a b c : Bool,
    gate .tof { a := a, b := b, c := c } = { a := a, b := b, c := c ^^ (a && b) } ∧
    gate .mtof { a := a, b := b, c := c } = { a := a ^^ (b && c), b := b, c := c } ∧
    gate .fre { a := a, b := b, c := c } = (if c then { a := b, b := a, c := c } else { a := a, b := b, c := c }) ∧
    gate .mfre { a := a, b := b, c := c } = (if a then { a := a, b := c, c := b } else { a := a, b := b, c := c })) ∧
  (List.range 8).map (row .tof) = [0b000, 0b001, 0b010, 0b011, 0b100, 0b101, 0b111, 0b110] ∧
  (List.range 8).map (row .mtof) = [0b000, 0b001, 0b010, 0b111, 0b100, 0b101, 0b110, 0b011] ∧
  (List.range 8).map (row .fre) = [0b000, 0b001, 0b010, 0b101, 0b100, 0b011, 0b110, 0b111] ∧
  (List.range 8).map (row .mfre) = [0b000, 0b001, 0b010, 0b011, 0b100, 0b110, 0b101, 0b111] ∧
  (∀ t, gate .mtof t = (gate .tof t.reverse).reverse ∧ gate .mfre t = (gate .fre t.reverse).reverse) ∧
  (∀ t, (gate .fre t).ones = t.ones ∧ (gate .mfre t).ones = t.ones)

/-- The laws of R86 and R87: every gate is an involution, hence a bijection on the eight triples and its own inverse, and exchanges exactly two
triples (TOF 110 and 111, MTOF 011 and 111, FRE 011 and 101, MFRE 101 and 110); every gate fixes 000; which bits each leaves alone; TOF and MTOF
change the number of 1 bits by exactly one when they act; TOF and MTOF do not commute on (0,1,1). -/
def Obligations.GateLaws : Prop :=
  let swaps (g : Gate) (p q : Triple) : Prop :=
    gate g p = q ∧ gate g q = p ∧ ∀ t, t ≠ p → t ≠ q → gate g t = t
  (∀ g t, gate g (gate g t) = t) ∧
  (∀ g, (∀ t u, gate g t = gate g u → t = u) ∧ ∀ u, ∃ t, gate g t = u) ∧
  swaps .tof { a := true, b := true, c := false } { a := true, b := true, c := true } ∧
  swaps .mtof { a := false, b := true, c := true } { a := true, b := true, c := true } ∧
  swaps .fre { a := false, b := true, c := true } { a := true, b := false, c := true } ∧
  swaps .mfre { a := true, b := false, c := true } { a := true, b := true, c := false } ∧
  (∀ g, gate g { a := false, b := false, c := false } = { a := false, b := false, c := false }) ∧
  (∀ t, (gate .tof t).a = t.a ∧ (gate .tof t).b = t.b ∧ (gate .mtof t).b = t.b ∧ (gate .mtof t).c = t.c ∧
    (gate .fre t).c = t.c ∧ (gate .mfre t).a = t.a) ∧
  (∀ g t, g = .tof ∨ g = .mtof → gate g t ≠ t → (gate g t).ones = t.ones + 1 ∨ (gate g t).ones + 1 = t.ones) ∧
  gate .tof (gate .mtof { a := false, b := true, c := true }) = { a := true, b := true, c := false } ∧
  gate .mtof (gate .tof { a := false, b := true, c := true }) = { a := true, b := true, c := true }

/-- A gate instruction completes in every state and is one sublayer pass at the sequencer's position (L, s) (R80; 42_network.md R97 to R99):
in an active lane each of the ten triples with bases 16h + 3k + s becomes the gate of itself and the two bits left over are copied; a lane that
is not active is untouched; every other field of the state is unchanged. That one selector code stands for a sublayer pass is the model's
reading, log 8. -/
def Obligations.GateInstructionIsSublayerPass : Prop :=
  ∀ (g : Gate) (s : State), ∃ t, exec g.instr s = .next t ∧ t = { s with x := t.x } ∧
    ∀ (n : Nat) (hn : n < 8),
      (¬ LaneActive s.l n → t.x[n] = s.x[n]) ∧
      (LaneActive s.l n →
        (∀ h k, h < 2 → k < 5 →
          readTriple t.x[n] (16 * h + 3 * k + s.sub.val) = gate g (readTriple s.x[n] (16 * h + 3 * k + s.sub.val))) ∧
        (∀ j, j < 32 → (j + 1) % 16 = s.sub.val → t.x[n].getLsbD j = s.x[n].getLsbD j))

/-- The gate instructions bit by bit: what each writes to the bits a, b, c at lane bits p, p+1, p+2 of a triple of a lane that is active in layer L
(the pseudocode of R81, R82, R83, R84; the wiring of R97, the active lanes of R96). That one selector code, executed, is a sublayer pass over every
active lane at (L, s) is the model's reading, log 8 (DEDUCED). -/
def Obligations.GateInstructionBits : Prop :=
  ∀ (s : State) (n h k : Nat) (hn : n < 8), LaneActive s.l n → h < 2 → k < 5 →
    let p := 16 * h + 3 * k + s.sub.val
    let a := s.x[n].getLsbD p
    let b := s.x[n].getLsbD (p + 1)
    let c := s.x[n].getLsbD (p + 2)
    (∃ t, exec .tof s = .next t ∧ t.x[n].getLsbD p = a ∧ t.x[n].getLsbD (p + 1) = b ∧
      t.x[n].getLsbD (p + 2) = (c ^^ (a && b))) ∧
    (∃ t, exec .mtof s = .next t ∧ t.x[n].getLsbD p = (a ^^ (b && c)) ∧ t.x[n].getLsbD (p + 1) = b ∧
      t.x[n].getLsbD (p + 2) = c) ∧
    (∃ t, exec .fre s = .next t ∧ t.x[n].getLsbD p = (if c then b else a) ∧
      t.x[n].getLsbD (p + 1) = (if c then a else b) ∧ t.x[n].getLsbD (p + 2) = c) ∧
    (∃ t, exec .mfre s = .next t ∧ t.x[n].getLsbD p = a ∧ t.x[n].getLsbD (p + 1) = (if a then c else b) ∧
      t.x[n].getLsbD (p + 2) = (if a then b else c))

/-- The same gate instruction twice at one position restores the state (R86; 42_network.md R99). It rests on the model's reading that a selector
code, executed, is one sublayer pass, log 8 (DEDUCED). -/
def Obligations.GateInstructionTwiceRestores : Prop :=
  ∀ (g : Gate) (s : State), ∃ t, exec g.instr s = .next t ∧ exec g.instr t = .next s

/-! ## Selector generator (41_selector.md) -/

/-- `CODE(E, i)` takes stream bits 2i and 2i+1, the first one as bit 1 (R90; 00_scope.md R7), and `SEL(E, L) = E[257-2L : 256-2L]` (R91). -/
def Obligations.SelectorCodesAreStreamBits : Prop :=
  ∀ e : Block,
    (∀ i, i < 128 → (code e i).getLsbD 1 = e.getLsbD (255 - 2 * i) ∧ (code e i).getLsbD 0 = e.getLsbD (254 - 2 * i) ∧
      (code e i).getLsbD 1 = streamBit e (2 * i) ∧ (code e i).getLsbD 0 = streamBit e (2 * i + 1)) ∧
    (∀ L, 1 ≤ L → L ≤ 128 →
      (sel e L).getLsbD 1 = e.getLsbD (257 - 2 * L) ∧ (sel e L).getLsbD 0 = e.getLsbD (256 - 2 * L))

/-- The selector sequence of the IV and how often each gate occurs in it (R93). -/
def Obligations.SelectorSequenceOfIV : Prop :=
  let codes := (List.range 128).map fun i => (code Config.IV i).toNat
  codes =
    [1,0,0,2,2,0,2,2,0,2,3,3,2,1,2,0] ++ [1,3,0,1,0,3,1,3,1,0,1,0,2,1,0,1] ++
    [2,3,1,1,3,0,0,0,3,3,2,3,3,0,3,3] ++ [3,2,2,1,2,3,1,1,3,1,2,3,2,2,1,1] ++
    [0,3,2,1,1,1,1,2,3,0,0,2,1,1,2,3] ++ [1,1,2,1,3,3,0,1,0,1,0,1,3,3,0,1] ++
    [2,1,0,2,0,3,3,3,2,0,0,2,2,2,1,0] ++ [2,2,2,3,0,1,3,0,1,1,3,2,3,1,1,1] ∧
  codes.count 0 = 28 ∧ codes.count 1 = 38 ∧ codes.count 2 = 31 ∧ codes.count 3 = 31

/-! ## Network (42_network.md) and inverse network (44_inverse.md) -/

/-- The zigzag (R96): which lanes are active in a layer, and that every lane is active in 96 of the 128 layers. -/
def Obligations.ZigzagLanes : Prop :=
  (∀ L n, active L n = true ↔ LaneActive L n) ∧
  ∀ n, n < 8 → ((List.range 128).filter fun L => active (L + 1) n).length = 96

/-- LANEPASS is an involution and fixes the zero lane, for every lane width (R98). -/
def Obligations.LanePassIsInvolution : Prop :=
  ∀ (w : Nat) (g : Gate) (s : Fin 2) (v : BitVec w),
    lanePass g s (lanePass g s v) = v ∧ lanePass g s (0#w) = 0#w

/-- LAYER and INVLAYER undo each other, for every number and width of lanes (R101; 44_inverse.md R135; 00_scope.md R5). -/
def Obligations.LayerAndInverseLayerCancel : Prop :=
  ∀ (nl w N : Nat) (x : Vector (BitVec w) nl) (e : BitVec N) (L : Nat),
    invLayer (layer x e L) e L = x ∧ layer (invLayer x e L) e L = x

/-- Any number of layers is a bijection of the lanes, for every instantiation NL, W, NLAYERS (00_scope.md R5; R107). -/
def Obligations.LayersAreBijectiveAtEveryWidth : Prop :=
  ∀ (nl w N n : Nat) (e : BitVec N) (x : Vector (BitVec w) nl),
    invLayers e n (layers e n x) = x ∧ layers e n (invLayers e n x) = x

/-- Bijectivity (42_network.md R107) and the inverse law (44_inverse.md R138): `INVNET(NET(B, E), E) = B` and `NET(INVNET(V, E), E) = V` for all B, V, E,
so that for a fixed encoding source NET is a permutation of the blocks with inverse INVNET; NET is not a bijection in E; and with a
different encoding source the first identity fails in general. -/
def Obligations.NetAndInverseNetCancel : Prop :=
  (∀ b v e : Block, INVNET (NET b e) e = b ∧ NET (INVNET v e) e = v) ∧
  (∃ b e e' : Block, e ≠ e' ∧ NET b e = NET b e') ∧
  ∃ b e e' : Block, INVNET (NET b e) e' ≠ b

/-- Lane independence, down to the 16-bit halves (R108): half h of lane n of the output depends on that half of the block alone, the encoding
source being fixed. -/
def Obligations.HalfLanesAreIndependent : Prop :=
  ∀ (b b' e : Block) (n h : Nat), n < 8 → h < 2 →
    (∀ j, j < 16 → (laneOf 32 b n).getLsbD (16 * h + j) = (laneOf 32 b' n).getLsbD (16 * h + j)) →
    ∀ j, j < 16 → (laneOf 32 (NET b e) n).getLsbD (16 * h + j) = (laneOf 32 (NET b' e) n).getLsbD (16 * h + j)

/-- The zero block (R106, R109; 44_inverse.md R137): under the zero source it is a fixed point, forward and inverse; under the IV it maps to the
non-zero value the spec gives (vector V-NET-1). Concrete values. -/
def Obligations.ZeroBlockUnderZeroAndIV : Prop :=
  NET 0#256 0#256 = 0#256 ∧ INVNET 0#256 0#256 = 0#256 ∧
  NET 0#256 Config.IV = 0x03cf64e831310000cec0aa4b814ea238c60ee05a308001d800280063cd03250b#256 ∧ NET 0#256 Config.IV ≠ 0#256

/-- Undoing a layer needs pass 2 before pass 1: the counter-example of 44_inverse.md R136 (lane 0 = 7, E = 0, L = 1). -/
def Obligations.PassOrderMattersForInverse : Prop :=
  let x : Lanes := splitBlock (0x00000007#32 ++ 0#224)
  let y := layer x (0#256) 1
  let un := xorStep y (splitBlock 0#256)
  y[0] = 0x00000003#32 ∧ (subPass .tof 1 1 (subPass .tof 0 1 un))[0] = 0x0000000f#32 ∧ (invLayer y (0#256) 1)[0] = 0x00000007#32

/-! ## Bytes, lanes and padding -/

/-- Byte extraction (20_memory.md R45): byte j of a value v is `v[255-8j : 248-8j]`, character k of its hex form is the lowercase digit of the nibble
`v[255-4k : 252-4k]`; and this is inverse to block assembly (R44), whose byte j is byte j of the sequence. -/
def Obligations.BytesAndBlocksCorrespond : Prop :=
  (∀ v : Block, (bytesOf v).length = 32 ∧ (hexOf v).length = 64 ∧
    (∀ j i, j < 32 → i < 8 → ∃ b, (bytesOf v)[j]? = some b ∧ b.getLsbD i = v.getLsbD (248 - 8 * j + i)) ∧
    (∀ k, k < 64 → (hexOf v)[k]? =
      ['0', '1', '2', '3', '4', '5', '6', '7', '8', '9', 'a', 'b', 'c', 'd', 'e', 'f'][(v.extractLsb' (252 - 4 * k) 4).toNat]?)) ∧
  (∀ bs : List Byte, bs.length = 32 → bytesOf (blockOfBytes bs) = bs) ∧
  ∀ v : Block, blockOfBytes (bytesOf v) = v

/-- The lanes of a value and the value of its lanes are inverse to each other (10_state.md R11), and lane n of a block is its bytes 4n..4n+3, the
first most significant (20_memory.md R46). -/
def Obligations.LanesAndBlocksCorrespond : Prop :=
  (∀ v : Block, joinBlock (splitBlock v) = v) ∧ (∀ x : Lanes, splitBlock (joinBlock x) = x) ∧
  ∀ (v : Block) (n : Nat) (hn : n < 8), (splitBlock v)[n] =
    byteOf v (4 * n) ++ byteOf v (4 * n + 1) ++ byteOf v (4 * n + 2) ++ byteOf v (4 * n + 3)

/-- Every remainder pads to one block that UNPAD accepts and undoes (43_chunk_pipeline.md R115; 44_inverse.md R140). -/
def Obligations.UnpadUndoesPad : Prop :=
  ∀ r : List Byte, r.length ≤ 31 →
    (padBlk r).length = 32 ∧ (padBlk r).take r.length = r ∧ unpad (blockOfBytes (padBlk r)) = some r.length

/-- What UNPAD accepts (44_inverse.md R140): the last byte n in 1..32 and bytes 32-n..31 all equal to n; it answers 32 - n. -/
def Obligations.UnpadAcceptsExactlyPadding : Prop :=
  ∀ (b : Block) (c : Nat), unpad b = some c ↔
    ∃ n, 1 ≤ n ∧ n ≤ 32 ∧ c = 32 - n ∧ ∀ j, 32 - n ≤ j → j ≤ 31 → (byteOf b j).toNat = n

/-- Padding is injective on messages (43_chunk_pipeline.md R116): the padded message begins with M, has 32 * (floor(|M|/32) + 1) bytes, one block
for each 32 of them, and its last byte n gives |M| as its length minus n; two messages with the same padded message are the same. -/
def Obligations.PaddingIsInjective : Prop :=
  (∀ m m' : List Byte, padMessage m = padMessage m' → m = m') ∧
  ∀ m : List Byte, (padMessage m).take m.length = m ∧ (padMessage m).length = 32 * (m.length / 32 + 1) ∧
    blockCount m = m.length / 32 + 1 ∧
    ∃ n : Byte, (padMessage m).getLast? = some n ∧ m.length = (padMessage m).length - n.toNat

/-- INVERT (44_inverse.md R139): its loop, the last block first, each block's encoding source being the value to invert for the block before it; and if
D and the chain come from HASH(M), it returns exactly the blocks of the padded message of M. -/
def Obligations.InvertRecoversBlocks : Prop :=
  (∀ d : Block, INVERT d [] = []) ∧
  (∀ (d e : Block) (es : List Block), INVERT d (es ++ [e]) = INVERT e es ++ [INVNET d e]) ∧
  ∀ m : List Byte, INVERT (HASH m) ((List.range (blockCount m)).map (chainAt m)) =
    (List.range (blockCount m)).map (messageBlock m)

/-! ## Commands -/

/-- NOP is the word 0x000 and changes nothing, in any state; its opcode with `data` other than 0x00 is illegal (43_chunk_pipeline.md R124). -/
def Obligations.NopChangesNothing : Prop :=
  (∀ s : State, exec .nop s = .next s) ∧ decodeCmd 0x000#11 = .instr .nop ∧
  ∀ (w : BitVec 11) (s : State) (rest : List HostEvent), w.toNat / 256 = 0 → w.toNat % 256 ≠ 0 →
    s.pass = .idle → s.input = .cmd w :: rest → ∃ t, step s = .next t ∧ Latched 1#3 { s with input := rest } t

/-- RESET is legal in every state and leaves the reset values (43_chunk_pipeline.md R120; 10_state.md R25); the depth of the log and what the
host does next are not touched. That BUF and LOG list nothing afterwards is the model's form of "unspecified", log 3. -/
def Obligations.ResetCommandRestoresReset : Prop :=
  ∀ s : State, ∃ t, exec .reset s = .next t ∧ AtReset t ∧ t.logDepth = s.logDepth ∧ t.input = s.input

/-- The state after hardware reset has the values the spec states (10_state.md R25; 70_reset_and_hazards.md R170), nothing is presented on
the command port, DIGEST and STATUS read zero, and LOGDEPTH is at least 1. -/
def Obligations.ResetStateValues : Prop :=
  AtReset State.reset ∧ State.reset.input = [] ∧ State.reset.portDigest = 0#256 ∧ State.reset.portStatus = 0#8 ∧
  State.reset.cmdReady = true ∧ 1 ≤ State.reset.logDepth

/-- UPDATE of a byte that does not complete a block appends it at BUFLEN and changes nothing else (43_chunk_pipeline.md R121); every other byte
of BUF reads as before. -/
def Obligations.UpdateAppendsByte : Prop :=
  ∀ (s : State) (b : Byte), s.status.fin = false → s.buflen < 31 →
    ∃ t, exec (.update b) s = .next t ∧ t = { s with buf := t.buf, buflen := s.buflen + 1 } ∧
      ∀ a, Memory.read t.buf a = if a = s.buflen then some b else Memory.read s.buf a

/-- UPDATE of the 32nd byte runs the block step on the 32 bytes and empties the buffer (43_chunk_pipeline.md R117, R121). What S, L, s hold
afterwards is free (log 2). -/
def Obligations.UpdateCompletesBlock : Prop :=
  ∀ (s : State) (b : Byte) (bs : List Byte), s.status.fin = false → s.buflen = 31 → bs.length = 31 → Buffered s bs →
    ∃ t, exec (.update b) s = .next t ∧
      t.e = NET (blockOfBytes (bs ++ [b])) s.e ∧ t.buflen = 0 ∧
      (s.nblk < s.logDepth → t.nblk = s.nblk + 1 ∧ t.status = s.status ∧
        ∀ a, Memory.read t.log a = if a = s.nblk then some s.e else Memory.read s.log a) ∧
      (¬ s.nblk < s.logDepth → t.nblk = s.nblk ∧ t.status = { s.status with lovf := true } ∧ t.log = s.log) ∧
      (∀ a, Memory.read t.buf a = if a = 31 then some b else Memory.read s.buf a) ∧
      t.pass = .idle ∧ t.logDepth = s.logDepth ∧ t.icur = s.icur ∧ t.rblk = s.rblk ∧ t.rcnt = s.rcnt ∧ t.input = s.input

/-- FINALIZE pads the live bytes with 32 - BUFLEN bytes of that value, runs the block step, and sets FIN (43_chunk_pipeline.md R115, R117, R122).
What S, L, s hold afterwards is free (log 2). -/
def Obligations.FinalizeHashesLastBlock : Prop :=
  ∀ (s : State) (r : List Byte), s.status.fin = false → s.buflen ≤ 31 → r.length = s.buflen → Buffered s r →
    ∃ t, exec .finalize s = .next t ∧
      t.e = NET (blockOfBytes (r ++ List.replicate (32 - r.length) (BitVec.ofNat 8 (32 - r.length)))) s.e ∧ t.buflen = 0 ∧
      (s.nblk < s.logDepth → t.nblk = s.nblk + 1 ∧ t.status = { s.status with fin := true } ∧
        ∀ a, Memory.read t.log a = if a = s.nblk then some s.e else Memory.read s.log a) ∧
      (¬ s.nblk < s.logDepth → t.nblk = s.nblk ∧ t.status = { s.status with fin := true, lovf := true } ∧ t.log = s.log) ∧
      t.buf = s.buf ∧ t.portDigest = t.e ∧
      t.pass = .idle ∧ t.logDepth = s.logDepth ∧ t.icur = s.icur ∧ t.rblk = s.rblk ∧ t.rcnt = s.rcnt ∧ t.input = s.input

/-- After FINALIZE, UPDATE and FINALIZE raise STATE_ERR (code 2) and change nothing else; the digest stays (43_chunk_pipeline.md R123). -/
def Obligations.FinalizedInstanceIsTerminal : Prop :=
  ∀ (s : State) (b : Byte), s.status.fin = true →
    (∃ t, exec (.update b) s = .next t ∧ Latched 2#3 s t ∧ t.portDigest = s.portDigest) ∧
    (∃ t, exec .finalize s = .next t ∧ Latched 2#3 s t ∧ t.portDigest = s.portDigest)

/-- `raise ERR(code)` latches the first error and nothing else (60_exceptions.md R156, R158), with the codes of R150. -/
def Obligations.FirstErrorIsLatched : Prop :=
  (∀ (c : ErrCode) (s : State), Latched c.code s (s.raiseErr c)) ∧
  ErrCode.illegalCmd.code = 1#3 ∧ ErrCode.stateErr.code = 2#3 ∧ ErrCode.logUnavail.code = 3#3 ∧ ErrCode.padErr.code = 4#3

/-- INV_BEGIN (44_inverse.md R141): STATE_ERR before FINALIZE, LOG_UNAVAIL on an incomplete chain, in that priority (60_exceptions.md R155), else
ICUR takes NBLK, IA is set and RV cleared, and nothing else changes. -/
def Obligations.InvBeginArmsInversePath : Prop :=
  ∀ s : State,
    (s.status.fin = false → ∃ t, exec .invBegin s = .next t ∧ Latched 2#3 s t) ∧
    (s.status.fin = true → s.status.lovf = true → ∃ t, exec .invBegin s = .next t ∧ Latched 3#3 s t) ∧
    (s.status.fin = true → s.status.lovf = false →
      exec .invBegin s = .next { s with icur := s.nblk, status := { s.status with ia := true, rv := false } })

/-- INV_STEP on an armed instance recovers one block (44_inverse.md R142): R = INVNET(V, LOG[ICUR-1]) with V the digest for the last block and
LOG[ICUR] for the others, and the count of its message bytes; E, LOG and BUF are only read. What S, L, s hold afterwards is free (log 2). -/
def Obligations.InvStepRecoversBlock : Prop :=
  ∀ (s : State) (v ei : Block) (cnt : Nat),
    s.status.ia = true → 0 < s.icur → s.icur ≤ s.nblk → s.nblk ≤ s.logDepth →
    Memory.read s.log (s.icur - 1) = some ei →
    (s.icur = s.nblk → v = s.e) → (s.icur < s.nblk → Memory.read s.log s.icur = some v) →
    (s.icur = s.nblk → unpad (INVNET v ei) = some cnt) → (s.icur < s.nblk → cnt = 32) →
    ∃ t, exec .invStep s = .next t ∧
      t.rblk = INVNET v ei ∧ t.rcnt = cnt ∧ t.icur = s.icur - 1 ∧ t.status = { s.status with rv := true } ∧
      t.e = s.e ∧ t.log = s.log ∧ t.buf = s.buf ∧ t.buflen = s.buflen ∧ t.nblk = s.nblk ∧ t.logDepth = s.logDepth ∧
      t.pass = .idle ∧ t.input = s.input

/-- Where INV_STEP raises an error (44_inverse.md R142; 60_exceptions.md R150): STATE_ERR when the path is not armed or all blocks are recovered;
PAD_ERR when the last block recovered is no padding, with ICUR, RBLK, RCNT and RV unchanged (S, L, s, dead after the pass, are free). -/
def Obligations.InvStepErrors : Prop :=
  ∀ s : State,
    (s.status.ia = false ∨ s.icur = 0 → ∃ t, exec .invStep s = .next t ∧ Latched 2#3 s t) ∧
    (∀ ei, s.status.ia = true → 0 < s.icur → s.icur = s.nblk → s.nblk ≤ s.logDepth →
      Memory.read s.log (s.icur - 1) = some ei → unpad (INVNET s.e ei) = none →
      ∃ t u, exec .invStep s = .next t ∧ Latched 4#3 s u ∧ { u with x := t.x, l := t.l, sub := t.sub, pass := t.pass, free := t.free } = t ∧
        t.pass = .idle)

/-! ## The step -/

/-- A command word presented to an idle sequencer that decodes to an instruction is executed: step is exec of it, the word having been taken
(70_reset_and_hazards.md R176). -/
def Obligations.StepRunsDecodedCommand : Prop :=
  ∀ (s : State) (w : BitVec 11) (rest : List HostEvent) (i : Instr),
    s.pass = .idle → s.input = .cmd w :: rest → decodeCmd w = .instr i → step s = exec i { s with input := rest }

/-- A command word that is illegal raises ILLEGAL_CMD (code 1) in every state of an idle sequencer, before any other check, and changes
nothing else (30_encoding.md R66; 60_exceptions.md R150, R155). -/
def Obligations.StepRaisesIllegalCommand : Prop :=
  ∀ (s : State) (w : BitVec 11) (rest : List HostEvent),
    s.pass = .idle → s.input = .cmd w :: rest →
    (6 ≤ w.toNat / 256 ∨ (w.toNat / 256 ≠ 2 ∧ w.toNat % 256 ≠ 0)) →
    ∃ t, step s = .next t ∧ Latched 1#3 { s with input := rest } t

/-- Inside a forward pass a step runs the instruction that the selector code `E[257-2L : 256-2L]` decodes to, then moves the position on: to pass 2
of the layer; after pass 2 and the XOR with E, to the next layer; after layer 128, to the end of the pass (41_selector.md R91; 42_network.md R101).
A word on the command port waits (70_reset_and_hazards.md R176). -/
def Obligations.StepRunsSelectorCode : Prop :=
  ∀ (s : State) (fin : Bool), s.pass = .forward fin → NoReset s → 1 ≤ s.l → s.l ≤ 128 →
    ∃ t, exec (decodeSel (s.e.extractLsb' (256 - 2 * s.l) 2)) s = .next t ∧
      (s.sub = 0 → step s = .next { t with sub := 1 }) ∧
      (s.sub = 1 → s.l < 128 → step s = .next { t with x := xorStep t.x (splitBlock s.e), l := s.l + 1, sub := 0 }) ∧
      (s.sub = 1 → s.l = 128 → ∃ u, step s = .next u ∧ u.pass = .idle ∧ u.e = joinBlock (xorStep t.x (splitBlock s.e)) ∧
        u.buflen = 0 ∧ u.status = if fin then { s.status with fin := true } else s.status)

/-- Inside an inverse pass a step runs the code of layer L cut from LOG[ICUR-1]: pass 2, then pass 1, then the layer below with its XOR first
(44_inverse.md R135, R137); after pass 1 of layer 1 the pass ends, and with it INV_STEP (R142): the block is kept with its count, 32 for a block below the
last and UNPAD's for the last one, or PAD_ERR is latched and nothing else written (S, L, s, dead after the pass, are free: log 2). That a step inside
a pass runs one selector code is the model's reading, log 8; that the source is read from LOG again is log 9. -/
def Obligations.StepRunsSelectorCodeBackwards : Prop :=
  ∀ (s : State) (ei : Block), s.pass = .inverse → NoReset s → 1 ≤ s.l → s.l ≤ 128 → 0 < s.icur → s.icur ≤ s.logDepth →
    Memory.read s.log (s.icur - 1) = some ei →
    ∃ t, exec (decodeSel (ei.extractLsb' (256 - 2 * s.l) 2)) s = .next t ∧
      (s.sub = 1 → step s = .next { t with sub := 0 }) ∧
      (s.sub = 0 → 1 < s.l → step s = .next { t with x := xorStep t.x (splitBlock ei), l := s.l - 1, sub := 1 }) ∧
      (s.sub = 0 → s.l = 1 →
        (∀ cnt, (s.icur < s.nblk → cnt = 32) → (s.icur = s.nblk → unpad (joinBlock t.x) = some cnt) → s.icur ≤ s.nblk →
          ∃ u, step s = .next u ∧ u.pass = .idle ∧
            u = { s with x := u.x, l := u.l, sub := u.sub, pass := u.pass, free := u.free, rblk := joinBlock t.x, rcnt := cnt,
                         icur := s.icur - 1, status := { s.status with rv := true } }) ∧
        (s.icur = s.nblk → unpad (joinBlock t.x) = none →
          ∃ u v, step s = .next u ∧ u.pass = .idle ∧ Latched 4#3 s v ∧
            u = { v with x := u.x, l := u.l, sub := u.sub, pass := u.pass, free := u.free }))

/-- The reset pin takes effect in every state, inside a pass too, which it abandons, and leaves the reset values (70_reset_and_hazards.md R170;
10_state.md R25). That BUF and LOG list nothing afterwards is the model's form of "unspecified", log 3 (DESIGN CHOICE); that the pin is an event of the
host's list is log 6. -/
def Obligations.ResetPinTakesEffectAnywhere : Prop :=
  ∀ (s : State) (rest : List HostEvent), s.input = .rst :: rest →
    ∃ t, step s = .next t ∧ AtReset t ∧ t.logDepth = s.logDepth ∧ t.input = rest

/-- With no command presented an idle machine keeps its state (70_reset_and_hazards.md R176; 10_state.md R10). -/
def Obligations.IdleMachineWaits : Prop :=
  ∀ s : State, s.pass = .idle → s.input = [] → step s = .next s

/-- An instruction of the opcode table placed by its number is what the next step fetches (log 7: the model's own placing). -/
def Obligations.PlacedWordIsFetched : Prop :=
  ∀ (s : State) (nbits w : Nat) (i : Instr), decodeTableWord nbits w = some i →
    (s.withFetchWord nbits w).fetch = .command i ∨ ∃ src, (s.withFetchWord nbits w).fetch = .gate i src

/-- Commands are atomic (00_scope.md R8; 70_reset_and_hazards.md R176): stepping through the block pass of a command, one selector code at a time, 256
sublayer passes from the state in which the pass is loaded, ends in the very state the command's meaning answers. For UPDATE's 32nd byte, FINALIZE and INV_STEP. -/
def Obligations.PassStepsRefineAtomicCommands : Prop :=
  ∀ s : State, NoReset s →
    (∀ r : List Byte, s.status.fin = false → s.buflen ≤ 31 → r.length = s.buflen → Buffered s r →
      runSteps 256 (s.startBlock true (blockOfBytes (padBlk r))) = exec .finalize s) ∧
    (∀ (b : Byte) (bs : List Byte), s.status.fin = false → s.buflen = 31 → bs.length = 31 → Buffered s bs →
      runSteps 256 (({ s with buf := Memory.write s.buf 31 b, buflen := 32 }).startBlock false (blockOfBytes (bs ++ [b]))) =
        exec (.update b) s) ∧
    (∀ v ei : Block, s.status.ia = true → 0 < s.icur → s.icur ≤ s.nblk → s.nblk ≤ s.logDepth →
      Memory.read s.log (s.icur - 1) = some ei → (s.icur = s.nblk → v = s.e) → (s.icur < s.nblk → Memory.read s.log s.icur = some v) →
      runSteps 256 (s.loadInverse v ei) = exec .invStep s)

/-! ## Invariants and whole-machine rules -/

/-- The invariant of R24 holds after reset, whatever the depth of the log. -/
def Obligations.InvariantHoldsAtReset : Prop :=
  Inv State.reset ∧ ∀ d, 1 ≤ d → Inv (State.resetWith d)

/-- From every state with the invariant a step answers a next state, never a fault or a refusal, and the invariant holds there (10_state.md
R24; 60_exceptions.md R154): ranges, chain, live bytes written, flags, error latch; PAD_ERR is never latched (44_inverse.md R143). -/
def Obligations.StepKeepsInvariant : Prop :=
  ∀ s : State, Inv s → ∃ t, step s = .next t ∧ Inv t

/-- From any state whatever, a step keeps BUF and LOG in canonical form, inside their address ranges (20_memory.md R40, R41), and leaves LOGDEPTH
alone (00_scope.md R4). -/
def Obligations.StepKeepsMemoryCanonical : Prop :=
  ∀ s t : State, step s = .next t →
    Memory.wf s.buf = true → Memory.below 32 s.buf = true → Memory.wf s.log = true → Memory.below s.logDepth s.log = true →
    Memory.wf t.buf = true ∧ Memory.below 32 t.buf = true ∧ Memory.wf t.log = true ∧ Memory.below t.logDepth t.log = true ∧
    t.logDepth = s.logDepth

/-- Who writes what (10_state.md R12, R13, R15 to R22): E, LOG, NBLK and LOVF only RESET and the two commands with a block step; BUF and BUFLEN
only RESET, UPDATE, FINALIZE; ICUR only RESET, INV_BEGIN, INV_STEP; RBLK and RCNT only RESET and INV_STEP; FIN, IA, LOVF are cleared only by RESET, RV
only by RESET and INV_BEGIN. ERR and ERRCODE are cleared by RESET and otherwise change only from no error to one of the errors an instruction can raise
(60_exceptions.md R150): STATE_ERR by UPDATE, FINALIZE, INV_BEGIN, INV_STEP, LOG_UNAVAIL by INV_BEGIN, PAD_ERR by INV_STEP; so no gate and no NOP
writes them (R22). S is all a gate writes; a command leaves S, L and s alone unless it resets or runs a block pass. -/
def Obligations.RegistersHaveOnlyTheirWriters : Prop :=
  ∀ (i : Instr) (s t : State), exec i s = .next t →
    (i ≠ .reset → i ≠ .finalize → (∀ b, i ≠ .update b) →
      t.e = s.e ∧ t.log = s.log ∧ t.nblk = s.nblk ∧ t.buf = s.buf ∧ t.buflen = s.buflen ∧ t.status.lovf = s.status.lovf) ∧
    (i ≠ .reset → i ≠ .finalize → t.status.fin = s.status.fin) ∧
    (i ≠ .reset → i ≠ .invBegin → i ≠ .invStep → t.icur = s.icur ∧ t.status.rv = s.status.rv) ∧
    (i ≠ .reset → i ≠ .invBegin → t.status.ia = s.status.ia) ∧
    (i ≠ .reset → i ≠ .invStep → t.rblk = s.rblk ∧ t.rcnt = s.rcnt) ∧
    (i ≠ .reset → (s.status.fin = true → t.status.fin = true) ∧ (s.status.ia = true → t.status.ia = true) ∧
      (s.status.lovf = true → t.status.lovf = true)) ∧
    (i ≠ .reset → i ≠ .invBegin → s.status.rv = true → t.status.rv = true) ∧
    (i = .reset → t.status.err = false ∧ t.status.errcode = 0#3) ∧
    (i ≠ .reset →
      (t.status.err = s.status.err ∧ t.status.errcode = s.status.errcode) ∨
      (s.status.err = false ∧ t.status.err = true ∧
        ((t.status.errcode = 2#3 ∧ ((∃ b, i = .update b) ∨ i = .finalize ∨ i = .invBegin ∨ i = .invStep)) ∨
         (t.status.errcode = 3#3 ∧ i = .invBegin) ∨ (t.status.errcode = 4#3 ∧ i = .invStep)))) ∧
    (i.hostIssued = false → t = { s with x := t.x }) ∧
    (i = .nop ∨ i = .invBegin ∨ (∃ b, i = .update b ∧ (s.status.fin = true ∨ s.buflen ≠ 31)) ∨
      (i = .finalize ∧ s.status.fin = true) ∨ (i = .invStep ∧ (s.status.ia = false ∨ s.icur = 0)) →
      t.x = s.x ∧ t.l = s.l ∧ t.sub = s.sub) ∧
    t.logDepth = s.logDepth ∧ t.input = s.input

/-- The latch is left only by RESET, and a second error leaves ERRCODE as it is (60_exceptions.md R157, R158). -/
def Obligations.ErrorLatchIsSticky : Prop :=
  ∀ (i : Instr) (s t : State), exec i s = .next t → i ≠ .reset → s.status.err = true →
    t.status.err = true ∧ t.status.errcode = s.status.errcode

/-- A latched error blocks nothing: two states that differ only in the latch execute every instruction alike, up to the latch (60_exceptions.md R157). -/
def Obligations.LatchedErrorBlocksNothing : Prop :=
  ∀ (i : Instr) (s s' t : State), SameButLatch s s' → exec i s = .next t →
    ∃ t', exec i s' = .next t' ∧ SameButLatch t t'

/-- The digest is immutable once valid: after FINALIZE only RESET changes the port DIGEST (10_state.md R20). -/
def Obligations.DigestIsImmutable : Prop :=
  ∀ (i : Instr) (s t : State), s.status.fin = true → i ≠ .reset → exec i s = .next t → t.portDigest = s.portDigest

/-- S, L and s are dead between commands: no command reads them (10_state.md R12, R13). -/
def Obligations.PositionIsDeadBetweenCommands : Prop :=
  ∀ (i : Instr) (s s' t : State), i.hostIssued = true → SameButPosition s s' → exec i s = .next t →
    ∃ t', exec i s' = .next t' ∧ SameButPosition t t'

/-- BUF above BUFLEN and LOG from NBLK up are never read (10_state.md R24 item 8): two states that agree on the live bytes and words execute
every command alike and agree on them afterwards. -/
def Obligations.DeadMemoryIsNeverRead : Prop :=
  ∀ (i : Instr) (s s' t : State), i.hostIssued = true → s' = { s with buf := s'.buf, log := s'.log } →
    s.icur ≤ s.nblk → (∀ j, j < s.buflen → Memory.read s'.buf j = Memory.read s.buf j) →
    (∀ j, j < s.nblk → Memory.read s'.log j = Memory.read s.log j) → exec i s = .next t →
    ∃ t', exec i s' = .next t' ∧ t' = { t with buf := t'.buf, log := t'.log } ∧
      (∀ j, j < t.buflen → Memory.read t'.buf j = Memory.read t.buf j) ∧
      (∀ j, j < t.nblk → Memory.read t'.log j = Memory.read t.log j)

/-! ## Messages -/

/-- The commands compute HASH: RESET, one UPDATE for each byte of M and FINALIZE, issued to an instance in any state (its log at least one entry
deep, 00_scope.md R4), leave FIN = 1, ERR = 0
and DIGEST = HASH(M) (43_chunk_pipeline.md R119). -/
def Obligations.CommandsComputeHash : Prop :=
  ∀ (s : State) (m : List Byte), 1 ≤ s.logDepth →
    ∃ t, runCommands ([Instr.reset] ++ m.map Instr.update ++ [Instr.finalize]) s = .next t ∧
    t.status.fin = true ∧ t.status.err = false ∧ t.portDigest = HASH m

/-- The recovery law (44_inverse.md R143; 30_encoding.md R79): after hashing M with a log deep enough, `invert()` (INV_BEGIN and NBLK commands
INV_STEP) answers, raises no error, and the host has collected exactly the bytes of M at the offsets 0 to |M|-1; and the k-th INV_STEP shows block
NBLK-k of the padded message, with no error, so that PAD_ERR is not reached on this path. The form of `runInvert`, and of the host's store that it
answers, is the model's, log 14 (DESIGN CHOICE). -/
def Obligations.InvertRecoversMessage : Prop :=
  ∀ (s : State) (m : List Byte), blockCount m ≤ s.logDepth →
    (∃ t u mem, runCommands ([Instr.reset] ++ m.map Instr.update ++ [Instr.finalize]) s = .next t ∧ t.nblk = blockCount m ∧
      runInvert t = some (u, mem) ∧
      u.status.err = false ∧ u.icur = 0 ∧ mem.map Prod.fst = List.range m.length ∧ mem.map Prod.snd = m) ∧
    ∀ k, 1 ≤ k → k ≤ blockCount m →
      ∃ t, runCommands ([Instr.reset] ++ m.map Instr.update ++ [Instr.finalize, Instr.invBegin] ++ List.replicate k Instr.invStep) s = .next t ∧
        t.status.err = false ∧ t.icur = blockCount m - k ∧ t.rblk = messageBlock m (blockCount m - k) ∧
        t.rcnt = if k = 1 then m.length % 32 else 32

/-- A message with more blocks than the log holds is hashed all the same; NBLK stays at LOGDEPTH, LOVF is set, and INV_BEGIN raises LOG_UNAVAIL
(code 3) without arming the path (43_chunk_pipeline.md R117; 44_inverse.md R141). -/
def Obligations.LongMessageHashesWithoutInverse : Prop :=
  ∀ (s : State) (m : List Byte), 1 ≤ s.logDepth → s.logDepth < blockCount m →
    ∃ t, runCommands ([Instr.reset] ++ m.map Instr.update ++ [Instr.finalize, Instr.invBegin]) s = .next t ∧
      t.portDigest = HASH m ∧ t.nblk = s.logDepth ∧ t.status.lovf = true ∧ t.status.ia = false ∧
      t.status.err = true ∧ t.status.errcode = 3#3 ∧ t.icur = 0

/-- Chunk invariance (43_chunk_pipeline.md R126): on an instance in any state (its log at least one entry deep, 00_scope.md R4), after `new()` and any
way of feeding a message by repeated `update` calls, `digest()` answers the 32 bytes of HASH of the whole message, in the very state the one-shot
`new_function` of the whole message answers; a second `digest()` issues no command and returns the same bytes, and `hexdigest()` their 64 characters
(30_encoding.md R71 to R75). The law of one `update` call that carries it: it takes an instance that has accepted m and is not finalized to one that
has accepted m followed by the bytes fed (R119). The form of the calls is the model's, log 14 (DESIGN CHOICE). -/
def Obligations.ChunksMakeNoDifference : Prop :=
  (∀ (chunks : List (List Byte)) (s : State), 1 ≤ s.logDepth →
    ∃ t u, runCommands (callNew [] ++ (chunks.map callUpdate).flatten) s = .next t ∧
      runDigest t = .next (u, bytesOf (HASH chunks.flatten)) ∧ u.portDigest = HASH chunks.flatten ∧
      runHexdigest t = .next (u, hexOf (HASH chunks.flatten)) ∧
      runNewFunction chunks.flatten s = .next (u, bytesOf (HASH chunks.flatten)) ∧
      runDigest u = .next (u, bytesOf (HASH chunks.flatten))) ∧
  ∀ (m bs : List Byte) (s : State), Regular s → Follows m s → s.status.fin = false →
    ∃ t, runCommands (callUpdate bs) s = .next t ∧ Regular t ∧ Follows (m ++ bs) t ∧
      t.status.fin = false ∧ t.status.err = s.status.err ∧ t.status.errcode = s.status.errcode

/-- The known digests of the spec (43_chunk_pipeline.md R128): of the empty message, which is the all-padding block under the IV, and of
"Hello, world!". Concrete values. -/
def Obligations.KnownDigests : Prop :=
  HASH [] = 0xe2393350a2359d10bcf03be2a9aecb17f7a920289bd8e1b8e02a72e8f82e2125#256 ∧
  HASH [] = NET (blockOfBytes (List.replicate 32 0x20#8)) Config.IV ∧
  HASH [0x48, 0x65, 0x6c, 0x6c, 0x6f, 0x2c, 0x20, 0x77, 0x6f, 0x72, 0x6c, 0x64, 0x21] =
    0x06fb83ff2a3c844c1fee057467373901866d52a5be3c131d1302106f825400a0#256

/-- The bits of STATUS (10_state.md R19): FIN 0, IA 1, RV 2, LOVF 3, ERR 4, ERRCODE 7:5; and the levels err and fin copy two of them (60_exceptions.md R160). -/
def Obligations.StatusWordLayout : Prop :=
  ∀ s : State, s.portStatus.getLsbD 0 = s.status.fin ∧ s.portStatus.getLsbD 1 = s.status.ia ∧
    s.portStatus.getLsbD 2 = s.status.rv ∧ s.portStatus.getLsbD 3 = s.status.lovf ∧
    s.portStatus.getLsbD 4 = s.status.err ∧ s.portStatus.extractLsb' 5 3 = s.status.errcode ∧
    s.portErr = s.portStatus.getLsbD 4 ∧ s.portFin = s.portStatus.getLsbD 0

/-- The counters fit their ports (10_state.md R16, R17, R18, R21): at a command boundary BUFLEN, RCNT in 6 bits and NBLK, ICUR in
ceil(log2(LOGDEPTH+1)) bits, the least width that holds LOGDEPTH, read as the counters they show. -/
def Obligations.PortsShowCounters : Prop :=
  ∀ s : State, Regular s →
    s.portBuflen.toNat = s.buflen ∧ s.portRcnt.toNat = s.rcnt ∧ s.portNblk.toNat = s.nblk ∧ s.portIcur.toNat = s.icur ∧
    s.logDepth < 2 ^ s.counterWidth ∧ 2 ^ (s.counterWidth - 1) ≤ s.logDepth
end

