-- ==== Sys2Proof/Laws/Network.lean ====
section
/-! SUPPORT. One lemma per network operation that says what it does to each lane, triple and bit; callers cite these and do not unfold
the operations (42_network.md). -/

namespace Sys2Proof.Machine

/-! ## Single bits and triples -/

theorem getLsbD_setBit {w : Nat} (v : BitVec w) {i : Nat} (hi : i < w) (b : Bool) (j : Nat) :
    (setBit v i b).getLsbD j = if j = i then b else v.getLsbD j := by
  have hone : (1#w <<< i).getLsbD j = decide (j = i) := by
    have hw : 0 < w := by omega
    simp only [BitVec.getLsbD_shiftLeft, BitVec.getLsbD_one]
    by_cases hji : j = i
    · subst hji; simp [hi, hw]
    · rcases Nat.lt_or_ge j i with h | h
      · simp [h, hji]
      · have : j - i ≠ 0 := by omega
        simp [this, hji]
  unfold setBit
  generalize 1#w <<< i = m at hone ⊢
  by_cases hji : j = i
  · subst hji
    cases b <;> simp [hone, hi]
  · cases b
    · by_cases hj : j < w
      · simp only [Bool.false_eq_true, if_false, BitVec.getLsbD_and, BitVec.getLsbD_not, hone, hji, hj]
        simp
      · have h : v.getLsbD j = false := BitVec.getLsbD_of_ge v j (by omega)
        simp [h, hji]
    · simp [hone, hji]

theorem readTriple_writeTriple_same {w : Nat} (v : BitVec w) {t : Nat} (ht : t + 2 < w) (x : Triple) :
    readTriple (writeTriple v t x) t = x := by
  have h0 : t < w := by omega
  have h1 : t + 1 < w := by omega
  simp only [readTriple, writeTriple, getLsbD_setBit _ ht, getLsbD_setBit _ h1, getLsbD_setBit _ h0]
  simp

theorem getLsbD_writeTriple_outside {w : Nat} (v : BitVec w) {t j : Nat} (ht : t + 2 < w) (hj : j < t ∨ t + 2 < j)
    (x : Triple) : (writeTriple v t x).getLsbD j = v.getLsbD j := by
  have h0 : j ≠ t := by omega
  have h1 : j ≠ t + 1 := by omega
  have h2 : j ≠ t + 2 := by omega
  simp only [writeTriple, getLsbD_setBit _ ht, getLsbD_setBit _ (show t + 1 < w by omega),
    getLsbD_setBit _ (show t < w by omega), h0, h1, h2, if_false]

theorem readTriple_writeTriple_apart {w : Nat} (v : BitVec w) {t u : Nat} (ht : t + 2 < w)
    (hu : u + 3 ≤ t ∨ t + 3 ≤ u) (x : Triple) : readTriple (writeTriple v t x) u = readTriple v u := by
  simp only [readTriple]
  rw [getLsbD_writeTriple_outside v ht (by omega), getLsbD_writeTriple_outside v ht (by omega),
    getLsbD_writeTriple_outside v ht (by omega)]

/-! ## Writing a list of disjoint triples -/

theorem getLsbD_foldl_writeTriple_outside {w : Nat} (f : Nat → Triple) (ts : List Nat) (v : BitVec w) {j : Nat}
    (hw : ∀ t ∈ ts, t + 2 < w) (hj : ∀ t ∈ ts, j < t ∨ t + 2 < j) :
    (ts.foldl (fun v' t => writeTriple v' t (f t)) v).getLsbD j = v.getLsbD j := by
  induction ts generalizing v with
  | nil => rfl
  | cons t ts ih =>
    rw [List.foldl_cons, ih _ (fun u hu => hw u (by simp [hu])) (fun u hu => hj u (by simp [hu]))]
    exact getLsbD_writeTriple_outside v (hw t (by simp)) (hj t (by simp)) _

theorem readTriple_foldl_writeTriple_apart {w : Nat} (f : Nat → Triple) (ts : List Nat) (v : BitVec w) {u : Nat}
    (hw : ∀ t ∈ ts, t + 2 < w) (hu : ∀ t ∈ ts, u + 3 ≤ t ∨ t + 3 ≤ u) :
    readTriple (ts.foldl (fun v' t => writeTriple v' t (f t)) v) u = readTriple v u := by
  induction ts generalizing v with
  | nil => rfl
  | cons t ts ih =>
    rw [List.foldl_cons, ih _ (fun a ha => hw a (by simp [ha])) (fun a ha => hu a (by simp [ha]))]
    exact readTriple_writeTriple_apart v (hw t (by simp)) (hu t (by simp)) _

theorem readTriple_foldl_writeTriple_mem {w : Nat} (f : Nat → Triple) (ts : List Nat) (v : BitVec w) {t : Nat}
    (hw : ∀ t ∈ ts, t + 2 < w) (hp : ts.Pairwise fun a b => a + 3 ≤ b) (ht : t ∈ ts) :
    readTriple (ts.foldl (fun v' t => writeTriple v' t (f t)) v) t = f t := by
  induction ts generalizing v with
  | nil => cases ht
  | cons u ts ih =>
    rw [List.pairwise_cons] at hp
    rw [List.foldl_cons]
    have hw' : ∀ a ∈ ts, a + 2 < w := fun a ha => hw a (by simp [ha])
    by_cases hin : t ∈ ts
    · exact ih _ hw' hp.2 hin
    · have htu : t = u := by simpa [hin] using ht
      subst htu
      rw [readTriple_foldl_writeTriple_apart f ts _ hw' (fun a ha => Or.inl (hp.1 a ha))]
      exact readTriple_writeTriple_same v (hw t (by simp)) _

/-! ## The wiring (R97) -/

theorem mem_tripleBases {w : Nat} {s : Fin 2} {t : Nat} :
    t ∈ tripleBases w s ↔ ∃ h k, h < w / 16 ∧ k < 5 ∧ t = tripleBase s h k := by
  simp only [tripleBases, List.mem_flatMap, List.mem_map, List.mem_range]
  constructor
  · rintro ⟨h, hh, k, hk, rfl⟩; exact ⟨h, k, hh, hk, rfl⟩
  · rintro ⟨h, k, hh, hk, rfl⟩; exact ⟨h, hh, k, hk, rfl⟩

/-- Every triple lies inside the lane. -/
theorem tripleBases_inside {w : Nat} {s : Fin 2} : ∀ t ∈ tripleBases w s, t + 2 < w := by
  intro t ht
  obtain ⟨h, k, hh, hk, rfl⟩ := mem_tripleBases.mp ht
  have hs := s.isLt
  unfold tripleBase
  omega

/-- The triples of a pass are disjoint. -/
theorem tripleBases_apart {w : Nat} {s : Fin 2} : (tripleBases w s).Pairwise fun a b => a + 3 ≤ b := by
  unfold tripleBases
  rw [List.pairwise_flatMap]
  constructor
  · intro h _
    rw [List.pairwise_map]
    exact (List.pairwise_lt_range (n := 5)).imp (fun hkk => by unfold tripleBase; omega)
  · refine (List.pairwise_lt_range (n := w / 16)).imp ?_
    intro h h' hlt a ha b hb
    simp only [List.mem_map, List.mem_range] at ha hb
    obtain ⟨k, hk, rfl⟩ := ha
    obtain ⟨k', hk', rfl⟩ := hb
    unfold tripleBase
    omega

/-- A bit of a lane is the a, b or c of a triple of the pass, or the bit of its half that the pass leaves out. -/
theorem bit_cases {w : Nat} (s : Fin 2) {j : Nat} (hj : j / 16 < w / 16) :
    (∃ t ∈ tripleBases w s, j = t ∨ j = t + 1 ∨ j = t + 2) ∨
    ((j + 1) % 16 = s.val ∧ ∀ t ∈ tripleBases w s, j < t ∨ t + 2 < j) := by
  have hs := s.isLt
  by_cases hout : (j + 1) % 16 = s.val
  · refine Or.inr ⟨hout, fun t ht => ?_⟩
    obtain ⟨h, k, hh, hk, rfl⟩ := mem_tripleBases.mp ht
    unfold tripleBase
    rcases (by omega : k = 0 ∨ k = 1 ∨ k = 2 ∨ k = 3 ∨ k = 4) with rfl | rfl | rfl | rfl | rfl <;> omega
  · refine Or.inl ⟨tripleBase s (j / 16) ((j % 16 - s.val) / 3), mem_tripleBases.mpr ⟨j / 16, _, hj, by omega, rfl⟩, ?_⟩
    unfold tripleBase
    omega

/-! ## LANEPASS (R98) -/

/-- Every triple of the pass becomes the gate of the triple of the original lane. -/
theorem readTriple_lanePass {w : Nat} (g : Gate) (s : Fin 2) (v : BitVec w) {t : Nat} (ht : t ∈ tripleBases w s) :
    readTriple (lanePass g s v) t = gate g (readTriple v t) :=
  readTriple_foldl_writeTriple_mem _ _ v tripleBases_inside tripleBases_apart ht

/-- A bit outside every triple of the pass is copied. -/
theorem getLsbD_lanePass_outside {w : Nat} (g : Gate) (s : Fin 2) (v : BitVec w) {j : Nat}
    (hj : ∀ t ∈ tripleBases w s, j < t ∨ t + 2 < j) : (lanePass g s v).getLsbD j = v.getLsbD j :=
  getLsbD_foldl_writeTriple_outside _ _ v tripleBases_inside hj

/-- A lane is known by its triples in a pass and the bits outside them. -/
theorem lane_ext {w : Nat} (s : Fin 2) {v v' : BitVec w}
    (ht : ∀ t ∈ tripleBases w s, readTriple v t = readTriple v' t)
    (ho : ∀ j, (∀ t ∈ tripleBases w s, j < t ∨ t + 2 < j) → v.getLsbD j = v'.getLsbD j) : v = v' := by
  apply BitVec.eq_of_getLsbD_eq
  intro j _
  by_cases hc : ∃ t ∈ tripleBases w s, ¬ (j < t ∨ t + 2 < j)
  · obtain ⟨t, hm, hin⟩ := hc
    have h := ht t hm
    simp only [readTriple, Triple.mk.injEq] at h
    rcases (by omega : j = t ∨ j = t + 1 ∨ j = t + 2) with rfl | rfl | rfl
    · exact h.1
    · exact h.2.1
    · exact h.2.2
  · apply ho
    intro t hm
    by_contra hin
    exact hc ⟨t, hm, hin⟩

/-! ## SUBPASS, XORSTEP and the lanes of a value -/

@[simp] theorem subPass_getElem {nl w : Nat} (g : Gate) (s : Fin 2) (L : Nat) (x : Vector (BitVec w) nl) (n : Nat)
    (hn : n < nl) : (subPass g s L x)[n] = if active L n then lanePass g s x[n] else x[n] := by
  simp [subPass]

@[simp] theorem xorStep_getElem {nl w : Nat} (x y : Vector (BitVec w) nl) (n : Nat) (hn : n < nl) :
    (xorStep x y)[n] = x[n] ^^^ y[n] := by
  simp [xorStep]

@[simp] theorem lanesOf_getElem {N nl w : Nat} (v : BitVec N) (n : Nat) (hn : n < nl) :
    (lanesOf nl w v)[n] = laneOf w v n := by
  simp [lanesOf]

@[simp] theorem splitBlock_getElem (v : Block) (n : Nat) (hn : n < 8) : (splitBlock v)[n] = laneOf 32 v n :=
  lanesOf_getElem v n hn

theorem NET_eq (b e : Block) : NET b e = joinBlock (layers e Config.nLayers (splitBlock b)) := rfl

theorem INVNET_eq (v e : Block) : INVNET v e = joinBlock (invLayers e Config.nLayers (splitBlock v)) := rfl

end Sys2Proof.Machine
end

