-- ==== Sys2Proof/Laws/Bytes.lean ====
section
/-! SUPPORT. The bits of a value put together from lanes or bytes, and of the lanes and bytes of a value (10_state.md R11; 20_memory.md R44, R45). -/

namespace Sys2Proof.Machine

/-- The bits of a sequence of w-bit values concatenated, the first most significant: the last value supplies bits w-1..0. -/
theorem getLsbD_foldl_concat {N w : Nat} (l : List (BitVec w)) (acc : BitVec N) (j : Nat) (hj : j < N) :
    (l.foldl (fun (a : BitVec N) (v : BitVec w) => a <<< w ||| v.setWidth N) acc).getLsbD j =
      if j < w * l.length then (l.reverse.getD (j / w) 0#w).getLsbD (j % w) else acc.getLsbD (j - w * l.length) := by
  induction l using List.reverseRecOn generalizing j with
  | nil => simp
  | append_singleton l v ih =>
    rw [List.foldl_append, List.foldl_cons, List.foldl_nil, List.reverse_append, List.length_append]
    simp only [BitVec.getLsbD_or, BitVec.getLsbD_shiftLeft, BitVec.getLsbD_setWidth, hj, decide_true, Bool.true_and,
      List.reverse_singleton, List.singleton_append, List.length_singleton]
    by_cases hjw : j < w
    · have h0 : j / w = 0 := Nat.div_eq_of_lt hjw
      have hm : j % w = j := Nat.mod_eq_of_lt hjw
      have hlt : j < w * (l.length + 1) := by nlinarith
      simp [hjw, h0, hm, hlt]
    · have hv : v.getLsbD j = false := BitVec.getLsbD_of_ge v j (by omega)
      simp only [hjw, decide_false, Bool.not_false, Bool.true_and, hv, Bool.or_false]
      rw [ih (j - w) (by omega)]
      rcases Nat.eq_zero_or_pos w with hw0 | hwpos
      · subst hw0
        simp
      · have hsub : (j - w) / w = j / w - 1 := by
          have h := Nat.div_eq_sub_div (a := j) hwpos (by omega)
          rw [h, Nat.add_sub_cancel]
        have hmod : (j - w) % w = j % w := by
          conv_rhs => rw [show j = j - w + w by omega, Nat.add_mod_right]
        have hdiv : 1 ≤ j / w := by rw [Nat.le_div_iff_mul_le hwpos]; omega
        have hcond : (j - w < w * l.length) ↔ (j < w * (l.length + 1)) := by rw [Nat.mul_succ]; omega
        have hacc : j - w - w * l.length = j - w * (l.length + 1) := by rw [Nat.mul_succ]; omega
        have hget : (v :: l.reverse).getD (j / w) 0#w = l.reverse.getD (j / w - 1) 0#w := by
          rw [show j / w = (j / w - 1) + 1 by omega]; simp
        simp only [hcond, hsub, hmod, hacc, hget]

/-- Bit j of a block is bit j mod 8 of byte 31 - j/8 of its bytes. -/
theorem getLsbD_blockOfBytes (bs : List Byte) (hbs : bs.length = 32) (j : Nat) (hj : j < 256) :
    (blockOfBytes bs).getLsbD j = (bs.getD (31 - j / 8) 0#8).getLsbD (j % 8) := by
  unfold blockOfBytes
  rw [getLsbD_foldl_concat bs 0#256 j hj, hbs, if_pos (by omega)]
  rw [List.getD_eq_getElem?_getD, List.getElem?_reverse (by omega), hbs, List.getD_eq_getElem?_getD]

/-- Bit i of byte j of a value is bit 248 - 8j + i of the value. -/
theorem getLsbD_byteOf (v : Block) (j i : Nat) (hi : i < 8) : (byteOf v j).getLsbD i = v.getLsbD (248 - 8 * j + i) := by
  simp [byteOf, hi]

/-- Bit j of S is bit j mod 32 of lane 7 - j/32. -/
theorem getLsbD_joinBlock (x : Lanes) (j : Nat) (hj : j < 256) :
    (joinBlock x).getLsbD j = (x[7 - j / 32]'(by omega)).getLsbD (j % 32) := by
  unfold joinBlock joinLanes
  rw [getLsbD_foldl_concat x.toList 0#256 j hj]
  have hlen : x.toList.length = 8 := by simp
  rw [hlen, if_pos (by omega), List.getD_eq_getElem?_getD, List.getElem?_reverse (by omega), hlen]
  have h7 : 8 - 1 - j / 32 < 8 := by omega
  simp [h7]

/-- Bit i of lane n of a value is bit 224 - 32n + i of the value. -/
theorem getLsbD_laneOf (v : Block) (n i : Nat) (hi : i < 32) :
    (laneOf 32 v n).getLsbD i = v.getLsbD (256 - 32 * (n + 1) + i) := by
  simp [laneOf, hi]

/-- The bytes of a value by index. -/
theorem bytesOf_getElem? (v : Block) (j : Nat) (hj : j < 32) : (bytesOf v)[j]? = some (byteOf v j) := by
  simp [bytesOf, hj]

@[simp] theorem bytesOf_length (v : Block) : (bytesOf v).length = 32 := by simp [bytesOf]

end Sys2Proof.Machine
end

