-- ==== Sys2Proof/Laws/HostCalls.lean ====
section
/-! SUPPORT. What a run of commands and the host's calls answer (30_encoding.md R71 to R77). Callers cite these. -/

namespace Sys2Proof.Machine

@[simp] theorem runCommands_nil (s : State) : runCommands [] s = .next s := rfl

/-- A run whose first part answers a next state goes on from it. -/
theorem runCommands_append {is js : List Instr} {s t : State} (h : runCommands is s = .next t) :
    runCommands (is ++ js) s = runCommands js t := by
  induction is generalizing s with
  | nil => cases h; rfl
  | cons i is ih =>
    simp only [List.cons_append, runCommands] at h ⊢
    split at h
    · exact ih h
    · cases h
    · cases h

/-- The commands of several `update` calls are those of one call with all the bytes (R71). -/
theorem callUpdate_flatten (chunks : List (List Byte)) :
    (chunks.map callUpdate).flatten = callUpdate chunks.flatten :=
  List.map_flatten.symm

/-- A call answers a next state exactly when its commands do, and returns what is read there. -/
theorem runReading_next_iff {α : Type} {is : List Instr} {read : State → α} {s t : State} {a : α} :
    runReading is read s = .next (t, a) ↔ runCommands is s = .next t ∧ read t = a := by
  unfold runReading
  split <;> simp_all

/-- `digest()` on a finalized instance issues no command (R73). -/
theorem runDigest_finalized {s : State} (h : s.status.fin = true) : runDigest s = .next (s, s.rawDigest) := by
  simp [runDigest, callDigest, h, runReading]

/-- `digest()` on an instance that is not finalized: FINALIZE, then the bytes of the port (R73). -/
theorem runDigest_of_finalize {s t : State} (h : s.status.fin = false) (ht : exec .finalize s = .next t) :
    runDigest s = .next (t, t.rawDigest) := by
  simp [runDigest, callDigest, h, runReading, runCommands, ht]

/-- `hexdigest()` answers the state of `digest()` and its bytes rendered (R74). -/
theorem runHexdigest_of_runDigest {s t : State} {bs : List Byte} (h : runDigest s = .next (t, bs)) :
    runHexdigest s = .next (t, hexOfBytes bs) := by
  simp [runHexdigest, h]

/-- `new_function(m)` answers what `digest()` answers after `new(m)` (R75). -/
theorem runNewFunction_of_new {m : List Byte} {s t : State} (h : runCommands (callNew m) s = .next t) :
    runNewFunction m s = runDigest t := by
  simp [runNewFunction, h]

/-- The more significant digit of byte j is nibble 2j, the other one nibble 2j+1 (20_memory.md R45). -/
theorem byteHex_byteOf (v : Block) {j : Nat} (hj : j < 32) :
    byteHex (byteOf v j) = [hexDigit (nibbleOf v (2 * j)), hexDigit (nibbleOf v (2 * j + 1))] := by
  have cut : ∀ m, m + 4 ≤ 8 → (byteOf v j).extractLsb' m 4 = v.extractLsb' (248 - 8 * j + m) 4 := by
    intro m hm
    apply BitVec.eq_of_getLsbD_eq
    intro i hi
    rw [BitVec.getLsbD_extractLsb', BitVec.getLsbD_extractLsb', getLsbD_byteOf v j (m + i) (by omega), Nat.add_assoc]
  unfold byteHex nibbleOf
  rw [cut 4 (by omega), cut 0 (by omega), show 248 - 8 * j + 4 = 252 - 4 * (2 * j) by omega,
    show 248 - 8 * j + 0 = 252 - 4 * (2 * j + 1) by omega]

/-- The rendering of a value's 32 bytes is its 64 hexadecimal characters (R45, R74). -/
theorem hexOfBytes_bytesOf (v : Block) : hexOfBytes (bytesOf v) = hexOf v := by
  have pairs : List.range 64 = (List.range 32).flatMap fun j => [2 * j, 2 * j + 1] := by decide
  unfold hexOfBytes bytesOf hexOf
  rw [pairs, List.flatMap_map, List.map_flatMap]
  exact List.flatMap_congr fun j hj => byteHex_byteOf v (List.mem_range.mp hj)

end Sys2Proof.Machine
end

