-- ==== Sys2Proof/Laws/Memory.lean ====
section
/-! SUPPORT. The laws of the canonical memory: what a read sees after a write, and that every write keeps the canonical form. -/

namespace Sys2Proof.Machine

variable {α : Type}

@[simp] theorem Memory.read_nil (a : Nat) : Memory.read ([] : List (Nat × α)) a = none := rfl

@[simp] theorem Memory.read_write_same (m : List (Nat × α)) (a : Nat) (v : α) :
    Memory.read (Memory.write m a v) a = some v := by
  induction m with
  | nil => simp [Memory.write, Memory.read]
  | cons c m ih =>
    obtain ⟨b, u⟩ := c
    by_cases hlt : a < b
    · simp [Memory.write, Memory.read, hlt]
    · by_cases heq : a = b
      · simp [Memory.write, Memory.read, heq]
      · have hne : b ≠ a := fun h => heq h.symm
        simp [Memory.write, Memory.read, hlt, heq, hne, ih]

theorem Memory.read_write_ne (m : List (Nat × α)) {a c : Nat} (v : α) (h : c ≠ a) :
    Memory.read (Memory.write m a v) c = Memory.read m c := by
  have ha : a ≠ c := fun e => h e.symm
  induction m with
  | nil => simp [Memory.write, Memory.read, ha, Memory.unlisted]
  | cons d m ih =>
    obtain ⟨b, u⟩ := d
    by_cases hlt : a < b
    · simp [Memory.write, Memory.read, hlt, ha]
    · by_cases heq : a = b
      · subst heq
        simp [Memory.write, Memory.read, ha]
      · simp [Memory.write, Memory.read, hlt, heq, ih]

theorem Memory.read_write (m : List (Nat × α)) (a c : Nat) (v : α) :
    Memory.read (Memory.write m a v) c = if c = a then some v else Memory.read m c := by
  by_cases h : c = a
  · subst h; simp
  · simp [h, Memory.read_write_ne m v h]

theorem Memory.wfFrom_mono (m : List (Nat × α)) {lo lo' : Nat} (h : lo' ≤ lo)
    (hm : Memory.wfFrom lo m = true) : Memory.wfFrom lo' m = true := by
  cases m with
  | nil => rfl
  | cons c m =>
    obtain ⟨b, u⟩ := c
    simp only [Memory.wfFrom, Bool.and_eq_true, decide_eq_true_eq] at hm ⊢
    exact ⟨by omega, hm.2⟩

theorem Memory.wfFrom_write (m : List (Nat × α)) {lo a : Nat} (v : α) (hlo : lo ≤ a)
    (hm : Memory.wfFrom lo m = true) : Memory.wfFrom lo (Memory.write m a v) = true := by
  induction m generalizing lo with
  | nil => simp [Memory.write, Memory.wfFrom, hlo]
  | cons c m ih =>
    obtain ⟨b, u⟩ := c
    simp only [Memory.wfFrom, Bool.and_eq_true, decide_eq_true_eq] at hm
    by_cases hlt : a < b
    · simp only [Memory.write, hlt, if_true, Memory.wfFrom, Bool.and_eq_true, decide_eq_true_eq]
      exact ⟨hlo, by omega, hm.2⟩
    · by_cases heq : a = b
      · subst heq
        simp only [Memory.write, hlt, if_false, if_true, Memory.wfFrom, Bool.and_eq_true, decide_eq_true_eq]
        exact hm
      · simp only [Memory.write, hlt, heq, if_false, Memory.wfFrom, Bool.and_eq_true, decide_eq_true_eq]
        exact ⟨hm.1, ih (by omega) hm.2⟩

/-- A write keeps the canonical form. -/
theorem Memory.wf_write (m : List (Nat × α)) (a : Nat) (v : α) (hm : Memory.wf m = true) :
    Memory.wf (Memory.write m a v) = true :=
  Memory.wfFrom_write m v (Nat.zero_le a) hm

/-- A write below a bound keeps the memory below it. -/
theorem Memory.below_write (m : List (Nat × α)) {n a : Nat} (v : α) (ha : a < n)
    (hm : Memory.below n m = true) : Memory.below n (Memory.write m a v) = true := by
  induction m with
  | nil => simp [Memory.write, Memory.below, ha]
  | cons c m ih =>
    obtain ⟨b, u⟩ := c
    simp only [Memory.below, List.all_cons, Bool.and_eq_true, decide_eq_true_eq] at hm ih
    by_cases hlt : a < b
    · simp only [Memory.write, hlt, if_true, Memory.below, List.all_cons, Bool.and_eq_true, decide_eq_true_eq]
      exact ⟨ha, hm⟩
    · by_cases heq : a = b
      · subst heq
        simpa [Memory.write, Memory.below, ha] using hm.2
      · simp only [Memory.write, hlt, heq, if_false, Memory.below, List.all_cons, Bool.and_eq_true, decide_eq_true_eq]
        exact ⟨hm.1, ih hm.2⟩

theorem Memory.wfFrom_read_lt (m : List (Nat × α)) {lo a : Nat} (hm : Memory.wfFrom lo m = true) (ha : a < lo) :
    Memory.read m a = none := by
  induction m generalizing lo with
  | nil => rfl
  | cons c m ih =>
    obtain ⟨b, u⟩ := c
    simp only [Memory.wfFrom, Bool.and_eq_true, decide_eq_true_eq] at hm
    have hb : b ≠ a := by omega
    simp only [Memory.read, hb, if_false]
    exact ih hm.2 (by omega)

/-- The memories of the state after reset are in canonical form. -/
theorem State.reset_memories_wf (d : Nat) :
    Memory.wf (State.resetWith d).buf = true ∧ Memory.wf (State.resetWith d).log = true := ⟨rfl, rfl⟩

/-- BUF stays canonical and in its address range under its write. -/
theorem State.bufWrite_wf (s t : State) (a : Nat) (v : Byte) (h : s.bufWrite a v = .ok t)
    (hm : Memory.wf s.buf = true) (hb : Memory.below Config.blockBytes s.buf = true) :
    Memory.wf t.buf = true ∧ Memory.below Config.blockBytes t.buf = true := by
  unfold State.bufWrite at h
  split at h
  · cases h
    exact ⟨Memory.wf_write _ _ _ hm, Memory.below_write _ _ ‹_› hb⟩
  · cases h

/-- LOG stays canonical and in its address range under its write. -/
theorem State.logWrite_wf (s : State) (a : Nat) (v : Block) (ha : a < s.logDepth)
    (hm : Memory.wf s.log = true) (hb : Memory.below s.logDepth s.log = true) :
    Memory.wf (s.logWrite a v).log = true ∧ Memory.below s.logDepth (s.logWrite a v).log = true :=
  ⟨Memory.wf_write _ _ _ hm, Memory.below_write _ _ ha hb⟩

/-- Canonical memories that read alike are equal data. -/
theorem Memory.ext_of_wf (m m' : List (Nat × α)) (hm : Memory.wf m = true) (hm' : Memory.wf m' = true)
    (h : ∀ a, Memory.read m a = Memory.read m' a) : m = m' := by
  have main : ∀ (m m' : List (Nat × α)) (lo lo' : Nat), Memory.wfFrom lo m = true → Memory.wfFrom lo' m' = true →
      (∀ a, Memory.read m a = Memory.read m' a) → m = m' := by
    intro m
    induction m with
    | nil =>
      intro m' lo lo' _ _ h
      cases m' with
      | nil => rfl
      | cons c m' =>
        have := h c.1
        simp [Memory.read, Memory.unlisted] at this
    | cons c m ih =>
      intro m' lo lo' hm hm' h
      obtain ⟨b, u⟩ := c
      cases m' with
      | nil =>
        have := h b
        simp [Memory.read, Memory.unlisted] at this
      | cons c' m' =>
        obtain ⟨b', u'⟩ := c'
        simp only [Memory.wfFrom, Bool.and_eq_true, decide_eq_true_eq] at hm hm'
        have hbb : b = b' := by
          rcases Nat.lt_trichotomy b b' with hlt | heq | hgt
          · have hb := h b
            have hne : b' ≠ b := by omega
            simp only [Memory.read, if_true, hne, if_false] at hb
            rw [Memory.wfFrom_read_lt m' hm'.2 (by omega)] at hb
            cases hb
          · exact heq
          · have hb := h b'
            have hne : b ≠ b' := by omega
            simp only [Memory.read, if_true, hne, if_false] at hb
            rw [Memory.wfFrom_read_lt m hm.2 (by omega)] at hb
            cases hb
        subst hbb
        have hu : u = u' := by simpa [Memory.read] using h b
        subst hu
        have hrest : ∀ a, Memory.read m a = Memory.read m' a := by
          intro a
          by_cases ha : b = a
          · subst ha
            rw [Memory.wfFrom_read_lt m hm.2 (by omega), Memory.wfFrom_read_lt m' hm'.2 (by omega)]
          · simpa [Memory.read, ha] using h a
        rw [ih m' (b + 1) (b + 1) hm.2 hm'.2 hrest]
  exact main m m' 0 0 hm hm' h

end Sys2Proof.Machine
end

