-- ==== Sys2Proof/Laws/State.lean ====
section
/-! SUPPORT. What every shared update does to every field of State: one lemma per field per update. -/

namespace Sys2Proof.Machine

variable (s : State)


/-! ### `State.gateAt` -/

@[simp] theorem State.gateAt_x (g : Gate) : (s.gateAt g).x = subPass g s.sub s.l s.x := rfl
@[simp] theorem State.gateAt_l (g : Gate) : (s.gateAt g).l = s.l := rfl
@[simp] theorem State.gateAt_sub (g : Gate) : (s.gateAt g).sub = s.sub := rfl
@[simp] theorem State.gateAt_pass (g : Gate) : (s.gateAt g).pass = s.pass := rfl
@[simp] theorem State.gateAt_e (g : Gate) : (s.gateAt g).e = s.e := rfl
@[simp] theorem State.gateAt_buf (g : Gate) : (s.gateAt g).buf = s.buf := rfl
@[simp] theorem State.gateAt_buflen (g : Gate) : (s.gateAt g).buflen = s.buflen := rfl
@[simp] theorem State.gateAt_log (g : Gate) : (s.gateAt g).log = s.log := rfl
@[simp] theorem State.gateAt_logDepth (g : Gate) : (s.gateAt g).logDepth = s.logDepth := rfl
@[simp] theorem State.gateAt_nblk (g : Gate) : (s.gateAt g).nblk = s.nblk := rfl
@[simp] theorem State.gateAt_icur (g : Gate) : (s.gateAt g).icur = s.icur := rfl
@[simp] theorem State.gateAt_status (g : Gate) : (s.gateAt g).status = s.status := rfl
@[simp] theorem State.gateAt_rblk (g : Gate) : (s.gateAt g).rblk = s.rblk := rfl
@[simp] theorem State.gateAt_rcnt (g : Gate) : (s.gateAt g).rcnt = s.rcnt := rfl
@[simp] theorem State.gateAt_input (g : Gate) : (s.gateAt g).input = s.input := rfl
@[simp] theorem State.gateAt_free (g : Gate) : (s.gateAt g).free = s.free := rfl

/-! ### `State.xorSource` -/

@[simp] theorem State.xorSource_x (src : Block) : (s.xorSource src).x = xorStep s.x (splitBlock src) := rfl
@[simp] theorem State.xorSource_l (src : Block) : (s.xorSource src).l = s.l := rfl
@[simp] theorem State.xorSource_sub (src : Block) : (s.xorSource src).sub = s.sub := rfl
@[simp] theorem State.xorSource_pass (src : Block) : (s.xorSource src).pass = s.pass := rfl
@[simp] theorem State.xorSource_e (src : Block) : (s.xorSource src).e = s.e := rfl
@[simp] theorem State.xorSource_buf (src : Block) : (s.xorSource src).buf = s.buf := rfl
@[simp] theorem State.xorSource_buflen (src : Block) : (s.xorSource src).buflen = s.buflen := rfl
@[simp] theorem State.xorSource_log (src : Block) : (s.xorSource src).log = s.log := rfl
@[simp] theorem State.xorSource_logDepth (src : Block) : (s.xorSource src).logDepth = s.logDepth := rfl
@[simp] theorem State.xorSource_nblk (src : Block) : (s.xorSource src).nblk = s.nblk := rfl
@[simp] theorem State.xorSource_icur (src : Block) : (s.xorSource src).icur = s.icur := rfl
@[simp] theorem State.xorSource_status (src : Block) : (s.xorSource src).status = s.status := rfl
@[simp] theorem State.xorSource_rblk (src : Block) : (s.xorSource src).rblk = s.rblk := rfl
@[simp] theorem State.xorSource_rcnt (src : Block) : (s.xorSource src).rcnt = s.rcnt := rfl
@[simp] theorem State.xorSource_input (src : Block) : (s.xorSource src).input = s.input := rfl
@[simp] theorem State.xorSource_free (src : Block) : (s.xorSource src).free = s.free := rfl

/-! ### `State.dropPosition` -/

@[simp] theorem State.dropPosition_x : s.dropPosition.x = Config.deadLanes s.free := rfl
@[simp] theorem State.dropPosition_l : s.dropPosition.l = (Config.deadLayer s.free).val + 1 := rfl
@[simp] theorem State.dropPosition_sub : s.dropPosition.sub = Config.deadSub s.free := rfl
@[simp] theorem State.dropPosition_pass : s.dropPosition.pass = s.pass := rfl
@[simp] theorem State.dropPosition_e : s.dropPosition.e = s.e := rfl
@[simp] theorem State.dropPosition_buf : s.dropPosition.buf = s.buf := rfl
@[simp] theorem State.dropPosition_buflen : s.dropPosition.buflen = s.buflen := rfl
@[simp] theorem State.dropPosition_log : s.dropPosition.log = s.log := rfl
@[simp] theorem State.dropPosition_logDepth : s.dropPosition.logDepth = s.logDepth := rfl
@[simp] theorem State.dropPosition_nblk : s.dropPosition.nblk = s.nblk := rfl
@[simp] theorem State.dropPosition_icur : s.dropPosition.icur = s.icur := rfl
@[simp] theorem State.dropPosition_status : s.dropPosition.status = s.status := rfl
@[simp] theorem State.dropPosition_rblk : s.dropPosition.rblk = s.rblk := rfl
@[simp] theorem State.dropPosition_rcnt : s.dropPosition.rcnt = s.rcnt := rfl
@[simp] theorem State.dropPosition_input : s.dropPosition.input = s.input := rfl
@[simp] theorem State.dropPosition_free : s.dropPosition.free = s.free + 1 := rfl

/-! ### `State.endPass` -/

@[simp] theorem State.endPass_x : s.endPass.x = Config.deadLanes s.free := rfl
@[simp] theorem State.endPass_l : s.endPass.l = (Config.deadLayer s.free).val + 1 := rfl
@[simp] theorem State.endPass_sub : s.endPass.sub = Config.deadSub s.free := rfl
@[simp] theorem State.endPass_pass : s.endPass.pass = .idle := rfl
@[simp] theorem State.endPass_e : s.endPass.e = s.e := rfl
@[simp] theorem State.endPass_buf : s.endPass.buf = s.buf := rfl
@[simp] theorem State.endPass_buflen : s.endPass.buflen = s.buflen := rfl
@[simp] theorem State.endPass_log : s.endPass.log = s.log := rfl
@[simp] theorem State.endPass_logDepth : s.endPass.logDepth = s.logDepth := rfl
@[simp] theorem State.endPass_nblk : s.endPass.nblk = s.nblk := rfl
@[simp] theorem State.endPass_icur : s.endPass.icur = s.icur := rfl
@[simp] theorem State.endPass_status : s.endPass.status = s.status := rfl
@[simp] theorem State.endPass_rblk : s.endPass.rblk = s.rblk := rfl
@[simp] theorem State.endPass_rcnt : s.endPass.rcnt = s.rcnt := rfl
@[simp] theorem State.endPass_input : s.endPass.input = s.input := rfl
@[simp] theorem State.endPass_free : s.endPass.free = s.free + 1 := rfl

/-! ### `State.loadForward` -/

@[simp] theorem State.loadForward_x (fin : Bool) (b : Block) : (s.loadForward fin b).x = splitBlock b := rfl
@[simp] theorem State.loadForward_l (fin : Bool) (b : Block) : (s.loadForward fin b).l = 1 := rfl
@[simp] theorem State.loadForward_sub (fin : Bool) (b : Block) : (s.loadForward fin b).sub = 0 := rfl
@[simp] theorem State.loadForward_pass (fin : Bool) (b : Block) : (s.loadForward fin b).pass = .forward fin := rfl
@[simp] theorem State.loadForward_e (fin : Bool) (b : Block) : (s.loadForward fin b).e = s.e := rfl
@[simp] theorem State.loadForward_buf (fin : Bool) (b : Block) : (s.loadForward fin b).buf = s.buf := rfl
@[simp] theorem State.loadForward_buflen (fin : Bool) (b : Block) : (s.loadForward fin b).buflen = s.buflen := rfl
@[simp] theorem State.loadForward_log (fin : Bool) (b : Block) : (s.loadForward fin b).log = s.log := rfl
@[simp] theorem State.loadForward_logDepth (fin : Bool) (b : Block) : (s.loadForward fin b).logDepth = s.logDepth := rfl
@[simp] theorem State.loadForward_nblk (fin : Bool) (b : Block) : (s.loadForward fin b).nblk = s.nblk := rfl
@[simp] theorem State.loadForward_icur (fin : Bool) (b : Block) : (s.loadForward fin b).icur = s.icur := rfl
@[simp] theorem State.loadForward_status (fin : Bool) (b : Block) : (s.loadForward fin b).status = s.status := rfl
@[simp] theorem State.loadForward_rblk (fin : Bool) (b : Block) : (s.loadForward fin b).rblk = s.rblk := rfl
@[simp] theorem State.loadForward_rcnt (fin : Bool) (b : Block) : (s.loadForward fin b).rcnt = s.rcnt := rfl
@[simp] theorem State.loadForward_input (fin : Bool) (b : Block) : (s.loadForward fin b).input = s.input := rfl
@[simp] theorem State.loadForward_free (fin : Bool) (b : Block) : (s.loadForward fin b).free = s.free := rfl

/-! ### `State.loadInverse` -/

@[simp] theorem State.loadInverse_x (v ei : Block) : (s.loadInverse v ei).x = xorStep (splitBlock v) (splitBlock ei) := rfl
@[simp] theorem State.loadInverse_l (v ei : Block) : (s.loadInverse v ei).l = Config.nLayers := rfl
@[simp] theorem State.loadInverse_sub (v ei : Block) : (s.loadInverse v ei).sub = 1 := rfl
@[simp] theorem State.loadInverse_pass (v ei : Block) : (s.loadInverse v ei).pass = .inverse := rfl
@[simp] theorem State.loadInverse_e (v ei : Block) : (s.loadInverse v ei).e = s.e := rfl
@[simp] theorem State.loadInverse_buf (v ei : Block) : (s.loadInverse v ei).buf = s.buf := rfl
@[simp] theorem State.loadInverse_buflen (v ei : Block) : (s.loadInverse v ei).buflen = s.buflen := rfl
@[simp] theorem State.loadInverse_log (v ei : Block) : (s.loadInverse v ei).log = s.log := rfl
@[simp] theorem State.loadInverse_logDepth (v ei : Block) : (s.loadInverse v ei).logDepth = s.logDepth := rfl
@[simp] theorem State.loadInverse_nblk (v ei : Block) : (s.loadInverse v ei).nblk = s.nblk := rfl
@[simp] theorem State.loadInverse_icur (v ei : Block) : (s.loadInverse v ei).icur = s.icur := rfl
@[simp] theorem State.loadInverse_status (v ei : Block) : (s.loadInverse v ei).status = s.status := rfl
@[simp] theorem State.loadInverse_rblk (v ei : Block) : (s.loadInverse v ei).rblk = s.rblk := rfl
@[simp] theorem State.loadInverse_rcnt (v ei : Block) : (s.loadInverse v ei).rcnt = s.rcnt := rfl
@[simp] theorem State.loadInverse_input (v ei : Block) : (s.loadInverse v ei).input = s.input := rfl
@[simp] theorem State.loadInverse_free (v ei : Block) : (s.loadInverse v ei).free = s.free := rfl

/-! ### `State.logWrite` -/

@[simp] theorem State.logWrite_x (a : Nat) (v : Block) : (s.logWrite a v).x = s.x := rfl
@[simp] theorem State.logWrite_l (a : Nat) (v : Block) : (s.logWrite a v).l = s.l := rfl
@[simp] theorem State.logWrite_sub (a : Nat) (v : Block) : (s.logWrite a v).sub = s.sub := rfl
@[simp] theorem State.logWrite_pass (a : Nat) (v : Block) : (s.logWrite a v).pass = s.pass := rfl
@[simp] theorem State.logWrite_e (a : Nat) (v : Block) : (s.logWrite a v).e = s.e := rfl
@[simp] theorem State.logWrite_buf (a : Nat) (v : Block) : (s.logWrite a v).buf = s.buf := rfl
@[simp] theorem State.logWrite_buflen (a : Nat) (v : Block) : (s.logWrite a v).buflen = s.buflen := rfl
@[simp] theorem State.logWrite_log (a : Nat) (v : Block) : (s.logWrite a v).log = Memory.write s.log a v := rfl
@[simp] theorem State.logWrite_logDepth (a : Nat) (v : Block) : (s.logWrite a v).logDepth = s.logDepth := rfl
@[simp] theorem State.logWrite_nblk (a : Nat) (v : Block) : (s.logWrite a v).nblk = s.nblk := rfl
@[simp] theorem State.logWrite_icur (a : Nat) (v : Block) : (s.logWrite a v).icur = s.icur := rfl
@[simp] theorem State.logWrite_status (a : Nat) (v : Block) : (s.logWrite a v).status = s.status := rfl
@[simp] theorem State.logWrite_rblk (a : Nat) (v : Block) : (s.logWrite a v).rblk = s.rblk := rfl
@[simp] theorem State.logWrite_rcnt (a : Nat) (v : Block) : (s.logWrite a v).rcnt = s.rcnt := rfl
@[simp] theorem State.logWrite_input (a : Nat) (v : Block) : (s.logWrite a v).input = s.input := rfl
@[simp] theorem State.logWrite_free (a : Nat) (v : Block) : (s.logWrite a v).free = s.free := rfl

/-! ### `State.toReset` -/

@[simp] theorem State.toReset_x : s.toReset.x = Config.deadLanes s.free := rfl
@[simp] theorem State.toReset_l : s.toReset.l = (Config.deadLayer s.free).val + 1 := rfl
@[simp] theorem State.toReset_sub : s.toReset.sub = Config.deadSub s.free := rfl
@[simp] theorem State.toReset_pass : s.toReset.pass = .idle := rfl
@[simp] theorem State.toReset_e : s.toReset.e = Config.IV := rfl
@[simp] theorem State.toReset_buf : s.toReset.buf = [] := rfl
@[simp] theorem State.toReset_buflen : s.toReset.buflen = 0 := rfl
@[simp] theorem State.toReset_log : s.toReset.log = [] := rfl
@[simp] theorem State.toReset_logDepth : s.toReset.logDepth = s.logDepth := rfl
@[simp] theorem State.toReset_nblk : s.toReset.nblk = 0 := rfl
@[simp] theorem State.toReset_icur : s.toReset.icur = 0 := rfl
@[simp] theorem State.toReset_status : s.toReset.status = Status.zero := rfl
@[simp] theorem State.toReset_rblk : s.toReset.rblk = 0#256 := rfl
@[simp] theorem State.toReset_rcnt : s.toReset.rcnt = 0 := rfl
@[simp] theorem State.toReset_input : s.toReset.input = s.input := rfl
@[simp] theorem State.toReset_free : s.toReset.free = s.free + 1 := rfl

/-! ### `State.consume` -/

@[simp] theorem State.consume_x : s.consume.x = s.x := rfl
@[simp] theorem State.consume_l : s.consume.l = s.l := rfl
@[simp] theorem State.consume_sub : s.consume.sub = s.sub := rfl
@[simp] theorem State.consume_pass : s.consume.pass = s.pass := rfl
@[simp] theorem State.consume_e : s.consume.e = s.e := rfl
@[simp] theorem State.consume_buf : s.consume.buf = s.buf := rfl
@[simp] theorem State.consume_buflen : s.consume.buflen = s.buflen := rfl
@[simp] theorem State.consume_log : s.consume.log = s.log := rfl
@[simp] theorem State.consume_logDepth : s.consume.logDepth = s.logDepth := rfl
@[simp] theorem State.consume_nblk : s.consume.nblk = s.nblk := rfl
@[simp] theorem State.consume_icur : s.consume.icur = s.icur := rfl
@[simp] theorem State.consume_status : s.consume.status = s.status := rfl
@[simp] theorem State.consume_rblk : s.consume.rblk = s.rblk := rfl
@[simp] theorem State.consume_rcnt : s.consume.rcnt = s.rcnt := rfl
@[simp] theorem State.consume_input : s.consume.input = s.input.tail := rfl
@[simp] theorem State.consume_free : s.consume.free = s.free := rfl

/-! ### `State.finishForward` -/

@[simp] theorem State.finishForward_x (fin : Bool) : (s.finishForward fin).x = Config.deadLanes s.free := rfl
@[simp] theorem State.finishForward_l (fin : Bool) : (s.finishForward fin).l = (Config.deadLayer s.free).val + 1 := rfl
@[simp] theorem State.finishForward_sub (fin : Bool) : (s.finishForward fin).sub = Config.deadSub s.free := rfl
@[simp] theorem State.finishForward_pass (fin : Bool) : (s.finishForward fin).pass = .idle := rfl
@[simp] theorem State.finishForward_e (fin : Bool) : (s.finishForward fin).e = joinBlock s.x := rfl
@[simp] theorem State.finishForward_buf (fin : Bool) : (s.finishForward fin).buf = s.buf := rfl
@[simp] theorem State.finishForward_buflen (fin : Bool) : (s.finishForward fin).buflen = 0 := rfl
@[simp] theorem State.finishForward_log (fin : Bool) : (s.finishForward fin).log = s.log := rfl
@[simp] theorem State.finishForward_logDepth (fin : Bool) : (s.finishForward fin).logDepth = s.logDepth := rfl
@[simp] theorem State.finishForward_nblk (fin : Bool) : (s.finishForward fin).nblk = s.nblk := rfl
@[simp] theorem State.finishForward_icur (fin : Bool) : (s.finishForward fin).icur = s.icur := rfl
@[simp] theorem State.finishForward_status (fin : Bool) : (s.finishForward fin).status = if fin then s.status.finalized else s.status := rfl
@[simp] theorem State.finishForward_rblk (fin : Bool) : (s.finishForward fin).rblk = s.rblk := rfl
@[simp] theorem State.finishForward_rcnt (fin : Bool) : (s.finishForward fin).rcnt = s.rcnt := rfl
@[simp] theorem State.finishForward_input (fin : Bool) : (s.finishForward fin).input = s.input := rfl
@[simp] theorem State.finishForward_free (fin : Bool) : (s.finishForward fin).free = s.free + 1 := rfl

/-! ### `State.raiseErr`: the latch, and nothing else (60_exceptions.md R156) -/

@[simp] theorem State.raiseErr_x (c : ErrCode) : (s.raiseErr c).x = s.x := by
  unfold State.raiseErr; split <;> rfl
@[simp] theorem State.raiseErr_l (c : ErrCode) : (s.raiseErr c).l = s.l := by
  unfold State.raiseErr; split <;> rfl
@[simp] theorem State.raiseErr_sub (c : ErrCode) : (s.raiseErr c).sub = s.sub := by
  unfold State.raiseErr; split <;> rfl
@[simp] theorem State.raiseErr_pass (c : ErrCode) : (s.raiseErr c).pass = s.pass := by
  unfold State.raiseErr; split <;> rfl
@[simp] theorem State.raiseErr_e (c : ErrCode) : (s.raiseErr c).e = s.e := by
  unfold State.raiseErr; split <;> rfl
@[simp] theorem State.raiseErr_buf (c : ErrCode) : (s.raiseErr c).buf = s.buf := by
  unfold State.raiseErr; split <;> rfl
@[simp] theorem State.raiseErr_buflen (c : ErrCode) : (s.raiseErr c).buflen = s.buflen := by
  unfold State.raiseErr; split <;> rfl
@[simp] theorem State.raiseErr_log (c : ErrCode) : (s.raiseErr c).log = s.log := by
  unfold State.raiseErr; split <;> rfl
@[simp] theorem State.raiseErr_logDepth (c : ErrCode) : (s.raiseErr c).logDepth = s.logDepth := by
  unfold State.raiseErr; split <;> rfl
@[simp] theorem State.raiseErr_nblk (c : ErrCode) : (s.raiseErr c).nblk = s.nblk := by
  unfold State.raiseErr; split <;> rfl
@[simp] theorem State.raiseErr_icur (c : ErrCode) : (s.raiseErr c).icur = s.icur := by
  unfold State.raiseErr; split <;> rfl
theorem State.raiseErr_status (c : ErrCode) : (s.raiseErr c).status =
    if s.status.err then s.status else { s.status with err := true, errcode := c.code } := by
  unfold State.raiseErr; split <;> rfl
@[simp] theorem State.raiseErr_rblk (c : ErrCode) : (s.raiseErr c).rblk = s.rblk := by
  unfold State.raiseErr; split <;> rfl
@[simp] theorem State.raiseErr_rcnt (c : ErrCode) : (s.raiseErr c).rcnt = s.rcnt := by
  unfold State.raiseErr; split <;> rfl
@[simp] theorem State.raiseErr_input (c : ErrCode) : (s.raiseErr c).input = s.input := by
  unfold State.raiseErr; split <;> rfl
@[simp] theorem State.raiseErr_free (c : ErrCode) : (s.raiseErr c).free = s.free := by
  unfold State.raiseErr; split <;> rfl
@[simp] theorem State.raiseErr_status_fin (c : ErrCode) : (s.raiseErr c).status.fin = s.status.fin := by
  unfold State.raiseErr; split <;> simp_all
@[simp] theorem State.raiseErr_status_ia (c : ErrCode) : (s.raiseErr c).status.ia = s.status.ia := by
  unfold State.raiseErr; split <;> simp_all
@[simp] theorem State.raiseErr_status_rv (c : ErrCode) : (s.raiseErr c).status.rv = s.status.rv := by
  unfold State.raiseErr; split <;> simp_all
@[simp] theorem State.raiseErr_status_lovf (c : ErrCode) : (s.raiseErr c).status.lovf = s.status.lovf := by
  unfold State.raiseErr; split <;> simp_all
@[simp] theorem State.raiseErr_status_err (c : ErrCode) : (s.raiseErr c).status.err = true := by
  unfold State.raiseErr; split <;> simp_all

theorem State.raiseErr_status_errcode (c : ErrCode) : (s.raiseErr c).status.errcode =
    if s.status.err then s.status.errcode else c.code := by
  unfold State.raiseErr; split <;> rfl

/-! ### `State.startBlock`: the log write or the overflow, and the load (43_chunk_pipeline.md R117) -/

@[simp] theorem State.startBlock_x (fin : Bool) (b : Block) : (s.startBlock fin b).x = splitBlock b := by
  unfold State.startBlock; split <;> rfl
@[simp] theorem State.startBlock_l (fin : Bool) (b : Block) : (s.startBlock fin b).l = 1 := by
  unfold State.startBlock; split <;> rfl
@[simp] theorem State.startBlock_sub (fin : Bool) (b : Block) : (s.startBlock fin b).sub = 0 := by
  unfold State.startBlock; split <;> rfl
@[simp] theorem State.startBlock_pass (fin : Bool) (b : Block) : (s.startBlock fin b).pass = .forward fin := by
  unfold State.startBlock; split <;> rfl
@[simp] theorem State.startBlock_e (fin : Bool) (b : Block) : (s.startBlock fin b).e = s.e := by
  unfold State.startBlock; split <;> rfl
@[simp] theorem State.startBlock_buf (fin : Bool) (b : Block) : (s.startBlock fin b).buf = s.buf := by
  unfold State.startBlock; split <;> rfl
@[simp] theorem State.startBlock_buflen (fin : Bool) (b : Block) : (s.startBlock fin b).buflen = s.buflen := by
  unfold State.startBlock; split <;> rfl
@[simp] theorem State.startBlock_logDepth (fin : Bool) (b : Block) : (s.startBlock fin b).logDepth = s.logDepth := by
  unfold State.startBlock; split <;> rfl
@[simp] theorem State.startBlock_icur (fin : Bool) (b : Block) : (s.startBlock fin b).icur = s.icur := by
  unfold State.startBlock; split <;> rfl
@[simp] theorem State.startBlock_rblk (fin : Bool) (b : Block) : (s.startBlock fin b).rblk = s.rblk := by
  unfold State.startBlock; split <;> rfl
@[simp] theorem State.startBlock_rcnt (fin : Bool) (b : Block) : (s.startBlock fin b).rcnt = s.rcnt := by
  unfold State.startBlock; split <;> rfl
@[simp] theorem State.startBlock_input (fin : Bool) (b : Block) : (s.startBlock fin b).input = s.input := by
  unfold State.startBlock; split <;> rfl
@[simp] theorem State.startBlock_free (fin : Bool) (b : Block) : (s.startBlock fin b).free = s.free := by
  unfold State.startBlock; split <;> rfl

@[simp] theorem State.startBlock_log (fin : Bool) (b : Block) : (s.startBlock fin b).log =
    if s.nblk < s.logDepth then Memory.write s.log s.nblk s.e else s.log := by
  unfold State.startBlock; split <;> rfl

@[simp] theorem State.startBlock_nblk (fin : Bool) (b : Block) : (s.startBlock fin b).nblk =
    if s.nblk < s.logDepth then s.nblk + 1 else s.nblk := by
  unfold State.startBlock; split <;> rfl

@[simp] theorem State.startBlock_status (fin : Bool) (b : Block) : (s.startBlock fin b).status =
    if s.nblk < s.logDepth then s.status else s.status.overflowed := by
  unfold State.startBlock; split <;> rfl

/-! ### The STATUS writes (10_state.md R19) -/

@[simp] theorem Status.overflowed_fin (t : Status) : t.overflowed.fin = t.fin := rfl
@[simp] theorem Status.overflowed_ia (t : Status) : t.overflowed.ia = t.ia := rfl
@[simp] theorem Status.overflowed_rv (t : Status) : t.overflowed.rv = t.rv := rfl
@[simp] theorem Status.overflowed_lovf (t : Status) : t.overflowed.lovf = true := rfl
@[simp] theorem Status.overflowed_err (t : Status) : t.overflowed.err = t.err := rfl
@[simp] theorem Status.overflowed_errcode (t : Status) : t.overflowed.errcode = t.errcode := rfl
@[simp] theorem Status.finalized_fin (t : Status) : t.finalized.fin = true := rfl
@[simp] theorem Status.finalized_ia (t : Status) : t.finalized.ia = t.ia := rfl
@[simp] theorem Status.finalized_rv (t : Status) : t.finalized.rv = t.rv := rfl
@[simp] theorem Status.finalized_lovf (t : Status) : t.finalized.lovf = t.lovf := rfl
@[simp] theorem Status.finalized_err (t : Status) : t.finalized.err = t.err := rfl
@[simp] theorem Status.finalized_errcode (t : Status) : t.finalized.errcode = t.errcode := rfl
@[simp] theorem Status.armed_fin (t : Status) : t.armed.fin = t.fin := rfl
@[simp] theorem Status.armed_ia (t : Status) : t.armed.ia = true := rfl
@[simp] theorem Status.armed_rv (t : Status) : t.armed.rv = false := rfl
@[simp] theorem Status.armed_lovf (t : Status) : t.armed.lovf = t.lovf := rfl
@[simp] theorem Status.armed_err (t : Status) : t.armed.err = t.err := rfl
@[simp] theorem Status.armed_errcode (t : Status) : t.armed.errcode = t.errcode := rfl
@[simp] theorem Status.recovered_fin (t : Status) : t.recovered.fin = t.fin := rfl
@[simp] theorem Status.recovered_ia (t : Status) : t.recovered.ia = t.ia := rfl
@[simp] theorem Status.recovered_rv (t : Status) : t.recovered.rv = true := rfl
@[simp] theorem Status.recovered_lovf (t : Status) : t.recovered.lovf = t.lovf := rfl
@[simp] theorem Status.recovered_err (t : Status) : t.recovered.err = t.err := rfl
@[simp] theorem Status.recovered_errcode (t : Status) : t.recovered.errcode = t.errcode := rfl
@[simp] theorem Status.zero_fin : Status.zero.fin = false := rfl
@[simp] theorem Status.zero_ia : Status.zero.ia = false := rfl
@[simp] theorem Status.zero_rv : Status.zero.rv = false := rfl
@[simp] theorem Status.zero_lovf : Status.zero.lovf = false := rfl
@[simp] theorem Status.zero_err : Status.zero.err = false := rfl
@[simp] theorem Status.zero_errcode : Status.zero.errcode = 0#3 := rfl

end Sys2Proof.Machine
end

