-- ==== Sys2Proof/Laws/Sequencer.lean ====
section
/-! SUPPORT. What a whole run of sublayer passes does: the sequencer computes the pure functions NET and INVNET (42_network.md R106;
44_inverse.md R137), and the state a block pass leaves, in one equation each. -/

namespace Sys2Proof.Machine

theorem State.subSteps_add (src : Block) (m n : Nat) (s : State) :
    s.subSteps src (m + n) = (s.subSteps src m).subSteps src n := by
  induction m generalizing s with
  | zero => simp [State.subSteps]
  | succ m ih =>
    rw [Nat.succ_add]
    exact ih (s.subStep src)

/-! ## Forward -/

/-- The two passes of a layer and its XOR step, before the last layer (R101). -/
theorem State.subSteps_two_forward (src : Block) (s : State) {fin : Bool} (hp : s.pass = .forward fin) (hs : s.sub = 0)
    (hl : s.l < Config.nLayers) :
    s.subSteps src 2 = { s with x := layer s.x src s.l, l := s.l + 1, sub := 0 } := by
  simp [State.subSteps, State.subStep, State.advance, State.gateAt, State.xorSource, hp, hs, hl, layer, splitBlock]

/-- The two passes of layer 128 and its XOR step; the position stays at its end. -/
theorem State.subSteps_two_last (src : Block) (s : State) {fin : Bool} (hp : s.pass = .forward fin) (hs : s.sub = 0)
    (hl : s.l = Config.nLayers) :
    s.subSteps src 2 = { s with x := layer s.x src s.l, sub := 1 } := by
  simp [State.subSteps, State.subStep, State.advance, State.gateAt, State.xorSource, hp, hs, hl, layer, splitBlock]

theorem State.subSteps_forward (src : Block) (s : State) {fin : Bool} (hp : s.pass = .forward fin) (hs : s.sub = 0)
    (hl : s.l = 1) (n : Nat) (hn : n < Config.nLayers) :
    s.subSteps src (2 * n) = { s with x := layers src n s.x, l := n + 1, sub := 0 } := by
  induction n with
  | zero =>
    cases s
    simp only at hl hs
    subst hl hs
    rfl
  | succ n ih =>
    rw [Nat.mul_succ, State.subSteps_add, ih (by omega)]
    exact State.subSteps_two_forward src { s with x := layers src n s.x, l := n + 1, sub := 0 } hp rfl hn

/-- A whole forward pass: layers 1 to 128 (R106). -/
theorem State.runPass_forward (src : Block) (s : State) {fin : Bool} (hp : s.pass = .forward fin) (hs : s.sub = 0)
    (hl : s.l = 1) :
    s.runPass src = { s with x := layers src Config.nLayers s.x, l := Config.nLayers, sub := 1 } := by
  have h : 2 * Config.nLayers = 2 * (Config.nLayers - 1) + 2 := rfl
  unfold State.runPass
  rw [h, State.subSteps_add, State.subSteps_forward src s hp hs hl _ (by decide)]
  exact State.subSteps_two_last src
    { s with x := layers src (Config.nLayers - 1) s.x, l := Config.nLayers - 1 + 1, sub := 0 } hp rfl rfl

/-! ## Inverse -/

theorem State.subSteps_two_inverse (src : Block) (s : State) (y : Lanes) (hp : s.pass = .inverse) (hs : s.sub = 1)
    (hl : 1 < s.l) (hx : s.x = xorStep y (splitBlock src)) :
    s.subSteps src 2 = { s with x := xorStep (invLayer y src s.l) (splitBlock src), l := s.l - 1, sub := 1 } := by
  simp [State.subSteps, State.subStep, State.advance, State.gateAt, State.xorSource, hp, hs, hl, hx, invLayer, splitBlock]

theorem State.subSteps_two_inverse_last (src : Block) (s : State) (y : Lanes) (hp : s.pass = .inverse) (hs : s.sub = 1)
    (hl : s.l = 1) (hx : s.x = xorStep y (splitBlock src)) :
    s.subSteps src 2 = { s with x := invLayer y src s.l, sub := 0 } := by
  simp [State.subSteps, State.subStep, State.advance, State.gateAt, hp, hs, hl, hx, invLayer, splitBlock]

theorem State.subSteps_inverse (src : Block) (n : Nat) (s : State) (y : Lanes) (hp : s.pass = .inverse) (hs : s.sub = 1)
    (hl : s.l = n + 1) (hx : s.x = xorStep y (splitBlock src)) :
    s.subSteps src (2 * (n + 1)) = { s with x := invLayers src (n + 1) y, l := 1, sub := 0 } := by
  induction n generalizing s y with
  | zero =>
    have hl1 : s.l = 1 := by simpa using hl
    refine (State.subSteps_two_inverse_last src s y hp hs hl1 hx).trans ?_
    cases s
    simp only at hl1
    subst hl1
    rfl
  | succ n ih =>
    have h : 2 * (n + 1 + 1) = 2 + 2 * (n + 1) := by omega
    rw [h, State.subSteps_add, State.subSteps_two_inverse src s y hp hs (by omega) hx]
    refine (ih { s with x := xorStep (invLayer y src s.l) (splitBlock src), l := s.l - 1, sub := 1 } (invLayer y src s.l) hp rfl
      (by simp [hl]) rfl).trans ?_
    rw [hl]
    rfl

/-- A whole inverse pass: layers 128 to 1 undone (44_inverse.md R137). -/
theorem State.runPass_inverse (src : Block) (s : State) (y : Lanes) (hp : s.pass = .inverse) (hs : s.sub = 1)
    (hl : s.l = Config.nLayers) (hx : s.x = xorStep y (splitBlock src)) :
    s.runPass src = { s with x := invLayers src Config.nLayers y, l := 1, sub := 0 } :=
  State.subSteps_inverse src (Config.nLayers - 1) s y hp hs hl hx

/-! ## The state a pass leaves -/

/-- BLOCKSTEP and the end of its command, in one equation (43_chunk_pipeline.md R117, R121, R122). -/
theorem State.blockStep_eq (fin : Bool) (b : Block) (s : State) :
    s.blockStep fin b =
      { s.endPass with
        e := NET b s.e
        buflen := 0
        log := if s.nblk < s.logDepth then Memory.write s.log s.nblk s.e else s.log
        nblk := if s.nblk < s.logDepth then s.nblk + 1 else s.nblk
        status :=
          let st := if s.nblk < s.logDepth then s.status else s.status.overflowed
          if fin then st.finalized else st } := by
  unfold State.blockStep
  rw [State.runPass_forward s.e (s.startBlock fin b) (fin := fin) (by simp) (by simp) (by simp)]
  simp only [State.startBlock_x]
  unfold State.startBlock
  split <;> rfl

/-- The inverse pass of INV_STEP and its end, in one equation (44_inverse.md R142). -/
theorem State.inverseStep_eq (v ei : Block) (s : State) :
    ((s.loadInverse v ei).runPass ei).finishInverse =
      match s.recoveredCount (INVNET v ei) with
      | none => s.endPass.raiseErr .padErr
      | some cnt =>
        { s.endPass with
          rblk := INVNET v ei
          rcnt := cnt
          icur := s.icur - 1
          status := s.status.recovered } := by
  rw [State.runPass_inverse ei (s.loadInverse v ei) (splitBlock v) rfl rfl rfl rfl]
  rfl

end Sys2Proof.Machine
end

