-- ==== Sys2Proof/Laws/Ops.lean ====
section
/-! SUPPORT. When each memory access answers, and what; and the cases of each meaning that answers a next state. Callers cite these. -/

namespace Sys2Proof.Machine

/-! ## BUF and LOG -/

theorem State.bufWrite_ok_iff (s t : State) (a : Nat) (v : Byte) :
    s.bufWrite a v = .ok t ↔ a < Config.blockBytes ∧ t = { s with buf := Memory.write s.buf a v } := by
  unfold State.bufWrite
  split <;> simp_all [eq_comm]

theorem State.bufRead_ok_iff (s : State) (a : Nat) (v : Byte) :
    s.bufRead a = .ok v ↔ a < Config.blockBytes ∧ Memory.read s.buf a = some v := by
  unfold State.bufRead
  split
  · split <;> simp_all
  · simp_all

theorem State.bufBytes_ok_iff (s : State) (a n : Nat) (bs : List Byte) :
    s.bufBytes a n = .ok bs ↔
      bs.length = n ∧ ∀ j, j < n → a + j < Config.blockBytes ∧ Memory.read s.buf (a + j) = bs[j]? := by
  induction n generalizing a bs with
  | zero => cases bs <;> simp [State.bufBytes]
  | succ n ih =>
    constructor
    · intro h
      simp only [State.bufBytes] at h
      split at h
      · cases h
      · rename_i v hv
        split at h
        · cases h
        · rename_i vs hvs
          cases h
          rw [State.bufRead_ok_iff] at hv
          rw [ih] at hvs
          refine ⟨by simp [hvs.1], fun j hj => ?_⟩
          cases j with
          | zero => simpa using hv
          | succ j =>
            have := hvs.2 j (by omega)
            rw [show a + (j + 1) = a + 1 + j by omega]
            simpa using this
    · rintro ⟨hlen, h⟩
      cases bs with
      | nil => simp at hlen
      | cons v vs =>
        have h0 := h 0 (by omega)
        have hv : s.bufRead a = .ok v := (s.bufRead_ok_iff a v).mpr (by simpa using h0)
        have hvs : s.bufBytes (a + 1) n = .ok vs := by
          rw [ih]
          refine ⟨by simpa using hlen, fun j hj => ?_⟩
          have := h (j + 1) (by omega)
          rw [show a + (j + 1) = a + 1 + j by omega] at this
          simpa using this
        simp [State.bufBytes, hv, hvs]

theorem State.bufLive_ok_iff (s : State) (r : List Byte) :
    s.bufLive = .ok r ↔ s.buflen < Config.blockBytes ∧ r.length = s.buflen ∧
      ∀ j, j < s.buflen → Memory.read s.buf j = r[j]? := by
  unfold State.bufLive
  split
  · rename_i hlt
    rw [State.bufBytes_ok_iff]
    constructor
    · rintro ⟨hlen, h⟩
      exact ⟨hlt, hlen, fun j hj => by simpa using (h j hj).2⟩
    · rintro ⟨-, hlen, h⟩
      exact ⟨hlen, fun j hj => ⟨by omega, by simpa using h j hj⟩⟩
  · simp_all

theorem State.logRead_ok_iff (s : State) (a : Nat) (v : Block) :
    s.logRead a = .ok v ↔ a < s.logDepth ∧ Memory.read s.log a = some v := by
  unfold State.logRead
  split
  · split <;> simp_all
  · simp_all

theorem State.inverseInput_ok_iff (s : State) (v : Block) :
    s.inverseInput = .ok v ↔
      (s.icur = s.nblk ∧ v = s.e) ∨ (s.icur < s.nblk ∧ s.icur < s.logDepth ∧ Memory.read s.log s.icur = some v) := by
  unfold State.inverseInput
  split
  · simp_all [eq_comm]
  · split
    · rw [State.logRead_ok_iff]; simp_all
    · simp_all

theorem State.inverseSource_ok_iff (s : State) (ei : Block) :
    s.inverseSource = .ok ei ↔ s.icur ≠ 0 ∧ s.icur - 1 < s.logDepth ∧ Memory.read s.log (s.icur - 1) = some ei := by
  unfold State.inverseSource
  split
  · simp_all
  · rw [State.logRead_ok_iff]; simp_all

/-! ## The meanings, case by case -/

/-- If UPDATE answers a next state, it raised STATE_ERR, or stored a byte below the 32nd, or stored the 32nd and ran the block step. -/
theorem execUpdate_next_cases {b : Byte} {s t : State} (h : execUpdate b s = .next t) :
    (s.status.fin = true ∧ t = s.raiseErr .stateErr) ∨
    (s.status.fin = false ∧ s.buflen < 31 ∧
      t = { s with buf := Memory.write s.buf s.buflen b, buflen := s.buflen + 1 }) ∨
    (s.status.fin = false ∧ s.buflen = 31 ∧ ∃ bs : List Byte, bs.length = 32 ∧
      (∀ j, j < 32 → Memory.read (Memory.write s.buf 31 b) j = bs[j]?) ∧
      t = ({ s with buf := Memory.write s.buf 31 b, buflen := 32 } : State).blockStep false (blockOfBytes bs)) := by
  unfold execUpdate at h
  split at h
  · exact Or.inl ⟨‹_›, by simpa using h.symm⟩
  · rename_i hfin
    have hfin : s.status.fin = false := by simpa using hfin
    split at h
    · cases h
    · rename_i s1 hw
      rw [State.bufWrite_ok_iff] at hw
      obtain ⟨hlt, rfl⟩ := hw
      simp only at h
      split at h
      · rename_i h32
        have h31 : s.buflen = 31 := by simpa [Config.blockBytes] using h32
        split at h
        · cases h
        · rename_i bs hbs
          rw [State.bufBytes_ok_iff] at hbs
          refine Or.inr (Or.inr ⟨hfin, h31, bs, hbs.1, fun j hj => ?_, ?_⟩)
          · have := (hbs.2 j hj).2
            simpa [h31] using this
          · simpa [h31] using h.symm
      · rename_i h32
        refine Or.inr (Or.inl ⟨hfin, ?_, by simpa using h.symm⟩)
        simp only [Config.blockBytes] at h32 hlt
        omega

/-- If FINALIZE answers a next state, it raised STATE_ERR or ran the block step on the padded live bytes. -/
theorem execFinalize_next_cases {s t : State} (h : execFinalize s = .next t) :
    (s.status.fin = true ∧ t = s.raiseErr .stateErr) ∨
    (s.status.fin = false ∧ s.buflen ≤ 31 ∧ ∃ r : List Byte, r.length = s.buflen ∧
      (∀ j, j < s.buflen → Memory.read s.buf j = r[j]?) ∧ t = s.blockStep true (blockOfBytes (padBlk r))) := by
  unfold execFinalize at h
  split at h
  · exact Or.inl ⟨‹_›, by simpa using h.symm⟩
  · rename_i hfin
    split at h
    · cases h
    · rename_i r hr
      rw [State.bufLive_ok_iff] at hr
      refine Or.inr ⟨by simpa using hfin, ?_, r, hr.2.1, hr.2.2, by simpa using h.symm⟩
      have := hr.1
      simp only [Config.blockBytes] at this
      omega

/-- INV_BEGIN always answers a next state: one of two errors, or the path armed. -/
theorem execInvBegin_next_cases {s t : State} (h : execInvBegin s = .next t) :
    (s.status.fin = false ∧ t = s.raiseErr .stateErr) ∨
    (s.status.fin = true ∧ s.status.lovf = true ∧ t = s.raiseErr .logUnavail) ∨
    (s.status.fin = true ∧ s.status.lovf = false ∧ t = { s with icur := s.nblk, status := s.status.armed }) := by
  unfold execInvBegin at h
  split at h
  · exact Or.inl ⟨‹_›, by simpa using h.symm⟩
  · rename_i hfin
    have hfin : s.status.fin = true := by simpa using hfin
    split at h
    · exact Or.inr (Or.inl ⟨hfin, ‹_›, by simpa using h.symm⟩)
    · rename_i hl
      exact Or.inr (Or.inr ⟨hfin, by simpa using hl, by simpa using h.symm⟩)

/-- If INV_STEP answers a next state, it raised STATE_ERR, or ran the inverse pass and then raised PAD_ERR or kept the block. -/
theorem execInvStep_next_cases {s t : State} (h : execInvStep s = .next t) :
    ((s.status.ia = false ∨ s.icur = 0) ∧ t = s.raiseErr .stateErr) ∨
    (s.status.ia = true ∧ s.icur ≠ 0 ∧ ∃ v ei, s.inverseInput = .ok v ∧ s.inverseSource = .ok ei ∧
      ((s.recoveredCount (INVNET v ei) = none ∧ t = s.endPass.raiseErr .padErr) ∨
       ∃ cnt, s.recoveredCount (INVNET v ei) = some cnt ∧
        t = { s.endPass with rblk := INVNET v ei, rcnt := cnt, icur := s.icur - 1, status := s.status.recovered })) := by
  unfold execInvStep at h
  split at h
  · exact Or.inl ⟨‹_›, by simpa using h.symm⟩
  · rename_i hc
    simp only [not_or, Bool.not_eq_false] at hc
    split at h
    · cases h
    · rename_i v hv
      split at h
      · cases h
      · rename_i ei hei
        refine Or.inr ⟨hc.1, hc.2, v, ei, hv, hei, ?_⟩
        rw [State.inverseStep_eq] at h
        split at h
        · exact Or.inl ⟨‹_›, by simpa using h.symm⟩
        · rename_i cnt hcnt
          exact Or.inr ⟨cnt, hcnt, by simpa using h.symm⟩

/-- The gate instructions are one sublayer pass each. -/
theorem exec_gate_instr (g : Gate) (s : State) : exec g.instr s = .next (s.gateAt g) := by
  cases g <;> rfl

end Sys2Proof.Machine
end

