-- ==== Sys2Proof/Laws/WordPass.lean ====
section
/-! SUPPORT. A lane pass over 32 bits as a few word operations, equal to LANEPASS (42_network.md R97, R98): the form in which the
kernel evaluates a whole pass of the network on numerals (`NET_eq_wordLayers`, `INVNET_eq_wordInvLayers`). -/

namespace Sys2Proof.Machine

/-- The a bits of the ten triples of pass s in a lane of 32 bits. -/
def tripleMask (s : Fin 2) : Lane := 0x12491249#32 <<< s.val

/-- The gate on every triple of pass s at once: the b and c bits are moved onto the a bits, and the changes moved back. -/
def wordPass (g : Gate) (s : Fin 2) (v : Lane) : Lane :=
  let m := tripleMask s
  match g with
  | .tof => v ^^^ ((v &&& (v >>> 1) &&& m) <<< 2)
  | .mtof => v ^^^ ((v >>> 1) &&& (v >>> 2) &&& m)
  | .fre => let d := (v ^^^ (v >>> 1)) &&& (v >>> 2) &&& m; v ^^^ d ^^^ (d <<< 1)
  | .mfre => let d := ((v >>> 1) ^^^ (v >>> 2)) &&& v &&& m; v ^^^ (d <<< 1) ^^^ (d <<< 2)

/-- The mask holds the base bits of the pass's triples and no other bit. -/
theorem getLsbD_tripleMask (s : Fin 2) {j : Nat} (hj : j < 32) :
    (tripleMask s).getLsbD j = decide (j ∈ tripleBases 32 s) := by
  revert s
  revert j
  decide +kernel

/-- A Fredkin gate adds the difference of the two bits it may swap, where its control is 1. -/
theorem gateFre_eq (a b c : Bool) : gateFre ⟨a, b, c⟩ = ⟨a ^^ ((a ^^ b) && c), b ^^ ((a ^^ b) && c), c⟩ := by
  revert a b c; decide

/-- The same of MFRE, whose control is a. -/
theorem gateMfre_eq (a b c : Bool) : gateMfre ⟨a, b, c⟩ = ⟨a, b ^^ ((b ^^ c) && a), c ^^ ((b ^^ c) && a)⟩ := by
  revert a b c; decide

/-- The word form is LANEPASS. -/
theorem wordPass_eq (g : Gate) (s : Fin 2) (v : Lane) : wordPass g s v = lanePass g s v := by
  have apart : ∀ t ∈ tripleBases 32 s, t + 1 ∉ tripleBases 32 s ∧ t + 2 ∉ tripleBases 32 s ∧
      (t < 1 ∨ t - 1 ∉ tripleBases 32 s) ∧ (t < 2 ∨ t - 2 ∉ tripleBases 32 s) := by
    revert s; decide +kernel
  apply lane_ext s
  · intro t ht
    obtain ⟨n1, n2, n3, n4⟩ := apart t ht
    have hin := tripleBases_inside t ht
    have m0 : (tripleMask s).getLsbD t = true := by rw [getLsbD_tripleMask s (by omega), decide_eq_true ht]
    have m1 : (tripleMask s).getLsbD (t + 1) = false := by rw [getLsbD_tripleMask s (by omega), decide_eq_false n1]
    have m2 : (tripleMask s).getLsbD (t + 2) = false := by rw [getLsbD_tripleMask s (by omega), decide_eq_false n2]
    have m3 : (!decide (t < 1)) = false ∨ (tripleMask s).getLsbD (t - 1) = false := by
      rw [getLsbD_tripleMask s (by omega)]; simpa using n3
    have m4 : (!decide (t < 2)) = false ∨ (tripleMask s).getLsbD (t - 2) = false := by
      rw [getLsbD_tripleMask s (by omega)]; simpa using n4
    have inside : decide (t < 32) = true ∧ decide (t + 1 < 32) = true ∧ decide (t + 2 < 32) = true ∧ decide (t + 1 < 1) = false ∧
        decide (t + 2 < 1) = false ∧ decide (t + 2 < 2) = false ∧ decide (t + 1 < 2) = decide (t < 1) := by
      refine ⟨?_, ?_, ?_, ?_, ?_, ?_, ?_⟩ <;> simp <;> omega
    obtain ⟨d0, d1, d2, d3, d4, d5, d6⟩ := inside
    rw [readTriple_lanePass g s v ht]
    cases g <;>
      simp only [wordPass, readTriple, gateFre_eq, gateMfre_eq, gate, gateTof, gateMtof, BitVec.getLsbD_xor, BitVec.getLsbD_and,
        BitVec.getLsbD_ushiftRight, BitVec.getLsbD_shiftLeft, Nat.add_comm 1, Nat.add_comm 2, Nat.add_sub_cancel,
        show t + 2 - 1 = t + 1 from rfl, show t + 1 - 2 = t - 1 from rfl, show t + 1 + 1 = t + 2 from rfl, m0, m1, m2, d0, d1, d2,
        d3, d4, d5, d6] <;>
      rcases m3 with m3 | m3 <;> rcases m4 with m4 | m4 <;>
      simp only [m3, m4, Bool.and_false, Bool.false_and, Bool.xor_false, Bool.and_true, Bool.true_and, Bool.not_false]
  · intro j hj
    have hm : ∀ i, i ≤ j → j ≤ i + 2 → (tripleMask s).getLsbD i = false := fun i hi hi' => by
      by_cases h : i < 32
      · rw [getLsbD_tripleMask s h, decide_eq_false]
        intro hb
        have := hj i hb
        omega
      · exact BitVec.getLsbD_of_ge _ _ (by omega)
    rw [getLsbD_lanePass_outside g s v hj]
    cases g <;>
      simp [wordPass, BitVec.getLsbD_xor, BitVec.getLsbD_and,
        BitVec.getLsbD_ushiftRight, BitVec.getLsbD_shiftLeft, hm j (by omega) (by omega),
        hm (j - 1) (by omega) (by omega), hm (j - 2) (by omega) (by omega)]

/-- SUBPASS over the word form. -/
def wordSubPass (g : Gate) (s : Fin 2) (L : Nat) (x : Lanes) : Lanes :=
  Vector.ofFn fun n => if active L n.val then wordPass g s x[n] else x[n]

theorem wordSubPass_eq (g : Gate) (s : Fin 2) (L : Nat) (x : Lanes) : wordSubPass g s L x = subPass g s L x := by
  simp [wordSubPass, subPass, wordPass_eq]

/-- Layers 1, 2, ..., n, over the word form. -/
def wordLayers (e : Block) : Nat → Lanes → Lanes
  | 0, x => x
  | n + 1, x =>
    xorStep
      (wordSubPass (layerGate e (n + 1)) 1 (n + 1) (wordSubPass (layerGate e (n + 1)) 0 (n + 1) (wordLayers e n x))) (lanesOf 8 32 e)

theorem wordLayers_eq (e : Block) (n : Nat) (x : Lanes) : wordLayers e n x = layers e n x := by
  induction n with
  | zero => rfl
  | succ n ih => rw [wordLayers, ih, wordSubPass_eq, wordSubPass_eq]; rfl

/-- NET over the word form. -/
theorem NET_eq_wordLayers (b e : Block) : NET b e = joinBlock (wordLayers e Config.nLayers (splitBlock b)) := by
  rw [NET_eq, wordLayers_eq]

/-- Layers n, n-1, ..., 1 undone, over the word form. -/
def wordInvLayers (e : Block) : Nat → Lanes → Lanes
  | 0, x => x
  | n + 1, x =>
    wordInvLayers e n
      (wordSubPass (layerGate e (n + 1)) 0 (n + 1) (wordSubPass (layerGate e (n + 1)) 1 (n + 1) (xorStep x (lanesOf 8 32 e))))

theorem wordInvLayers_eq (e : Block) (n : Nat) (x : Lanes) : wordInvLayers e n x = invLayers e n x := by
  induction n generalizing x with
  | zero => rfl
  | succ n ih => rw [wordInvLayers, ih, wordSubPass_eq, wordSubPass_eq]; rfl

/-- INVNET over the word form. -/
theorem INVNET_eq_wordInvLayers (v e : Block) : INVNET v e = joinBlock (wordInvLayers e Config.nLayers (splitBlock v)) := by
  rw [INVNET_eq, wordInvLayers_eq]

/-- With E = 0 every selector code is 00: TOF. -/
theorem layerGate_zero (L : Nat) : layerGate 0#256 L = .tof := by
  simp [layerGate, sel, code, show gateOfCode 0#2 = .tof by decide]

/-- With E = 0 a layer undone adds nothing, and TOF keeps zero lanes. -/
theorem invLayers_zero (n : Nat) : invLayers 0#256 n (Vector.replicate 8 0#32) = Vector.replicate 8 0#32 := by
  have pass : ∀ s L, subPass .tof s L (Vector.replicate 8 0#32) = Vector.replicate 8 0#32 := fun s L => by
    rw [← wordSubPass_eq]
    ext k hk : 1
    simp [wordSubPass, wordPass]
  have xor : xorStep (Vector.replicate 8 0#32) (lanesOf 8 32 0#256) = Vector.replicate 8 0#32 := by decide
  induction n with
  | zero => rfl
  | succ n ih => rw [invLayers, invLayer, layerGate_zero, xor, pass, pass, ih]

end Sys2Proof.Machine
end

