-- ==== Sys2Proof/Tests/Slice0.lean ====
section
/-! SUPPORT. Tests of one step or one operation, their expected values taken from spec/95_test_vectors.md or worked out from the
rules, and a witness for the hypotheses of each obligation that has some. -/

namespace Sys2Proof.Tests

open Sys2Proof Sys2Proof.Machine Sys2Proof.Safety

/-! ## Helpers -/

/-- An instance with a log of four entries after reset (the start of the spec's programs, 95_test_vectors.md section 10). -/
def fresh : State := State.resetWith 4

/-- STATUS after an outcome. -/
def statusOf : Host.Outcome State Fault Refusal → Option Nat
  | .next t => some t.portStatus.toNat
  | _ => none

/-- BUF and BUFLEN after an outcome. -/
def bufOf : Host.Outcome State Fault Refusal → Option (List Host.Cell × Nat)
  | .next t => some (t.buf, t.buflen)
  | _ => none

/-- NBLK and ICUR after an outcome. -/
def countersOf : Host.Outcome State Fault Refusal → Option (Nat × Nat)
  | .next t => some (t.nblk, t.icur)
  | _ => none

/-- S after an outcome. -/
def lanesAfter : Host.Outcome State Fault Refusal → Option (List Nat)
  | .next t => some (t.x.toList.map BitVec.toNat)
  | _ => none

/-- Inside a forward pass at layer l, sublayer s, every lane equal to v. -/
def inPass (l : Nat) (s : Fin 2) (v : Lane) : State :=
  { fresh with pass := .forward true, x := Vector.replicate 8 v, l := l, sub := s }

/-- `n` bytes of value v stored from address 0 up. -/
def filled (n : Nat) (v : Byte) : List Host.Cell := (List.range n).map fun a => (a, v)

/-- 31 bytes 0x00 have been accepted. -/
def almostFull : State := { fresh with buf := filled 31 0#8, buflen := 31 }

/-- The same, on an instance whose log of depth 1 is full (program P6, one block later). -/
def almostFullOverflow : State :=
  { State.resetWith 1 with
    buf := filled 31 0#8, buflen := 31, log := [(0, Config.IV)], nblk := 1
    e := 0x03cf64e831310000cec0aa4b814ea238c60ee05a308001d800280063cd03250b#256 }

/-- After FINALIZE of the empty message (program P1). -/
def finalized : State :=
  { fresh with
    e := 0xe2393350a2359d10bcf03be2a9aecb17f7a920289bd8e1b8e02a72e8f82e2125#256
    log := [(0, Config.IV)], nblk := 1, status := { Status.zero with fin := true } }

/-- After INV_BEGIN on it. -/
def armed : State := { finalized with icur := 1, status := { Status.zero with fin := true, ia := true } }

/-- After FINALIZE, INV_BEGIN and the first INV_STEP of program P3. -/
def midChain : State :=
  { fresh with
    e := 0x22bddf18202020201f90ca22c2da2068e232800b2020221020202034546d56ec#256
    log := [(0, Config.IV), (1, 0x03cf64e831310000cec0aa4b814ea238c60ee05a308001d800280063cd03250b#256)]
    nblk := 2, icur := 1, rblk := blockOfBytes (List.replicate 32 0x20#8)
    status := { Status.zero with fin := true, ia := true, rv := true } }

/-- After FINALIZE on a log that overflowed (program P6). -/
def overflowed : State :=
  { State.resetWith 1 with
    e := 0x22bddf18202020201f90ca22c2da2068e232800b2020221020202034546d56ec#256
    log := [(0, Config.IV)], nblk := 1, status := { Status.zero with fin := true, lovf := true } }

/-- A state with an error latched (code 1). -/
def latchedState : State := { fresh with status := { Status.zero with err := true, errcode := 1#3 } }

/-- After UPDATE 0x61 from reset. -/
def oneByte : State := { fresh with buf := [(0, 0x61#8)], buflen := 1 }

/-! ## Well-formedness -/

theorem test_wf_reserved_op6_refused : ({ op := 6#3, data := 0#8 } : CmdFields).wf = false := by decide
theorem test_wf_reserved_op7_refused : ({ op := 7#3, data := 0#8 } : CmdFields).opDefined = false := by decide
theorem test_wf_operand_refused : ({ op := 1#3, data := 1#8 } : CmdFields).wf = false := by decide
theorem test_wf_operand_field_refused : ({ op := 5#3, data := 0xff#8 } : CmdFields).dataAllowed = false := by decide
theorem test_wf_update_accepted : ({ op := 2#3, data := 0xff#8 } : CmdFields).wf = true := by decide
theorem test_wf_gate_not_host_issued : Instr.hostIssued .mfre = false := by decide
theorem test_wf_program_with_gate_refused : programWf [.reset, .tof, .finalize] = false := by decide
theorem test_wf_program_accepted : programWf [.reset, .update 0x61#8, .finalize] = true := by decide

/-! ## Decoding: the words of the two maps (30_encoding.md R64, R65; V-DEC-1) -/

theorem test_decode_tof : decodeTableWord 8 0b00 = some .tof := by decide
theorem test_decode_mtof : decodeTableWord 8 0b01 = some .mtof := by decide
theorem test_decode_fre : decodeTableWord 8 0b10 = some .fre := by decide
theorem test_decode_mfre : decodeTableWord 8 0b11 = some .mfre := by decide
theorem test_decode_nop : decodeTableWord 16 0b00000000000 = some .nop := by decide
theorem test_decode_reset : decodeTableWord 16 0b00100000000 = some .reset := by decide
theorem test_decode_update : decodeTableWord 16 0b01001001000 = some (.update 0x48#8) := by decide
theorem test_decode_update_all_ones : decodeTableWord 16 0b01011111111 = some (.update 0xff#8) := by decide
theorem test_decode_finalize : decodeTableWord 16 0b01100000000 = some .finalize := by decide
theorem test_decode_inv_begin : decodeTableWord 16 0b10000000000 = some .invBegin := by decide
theorem test_decode_inv_step : decodeTableWord 16 0b10100000000 = some .invStep := by decide
theorem test_decode_illegal :
    [0x001, 0x0ff, 0x101, 0x301, 0x480, 0x5ff, 0x600, 0x6ab, 0x700, 0x7ff].map (decodeTableWord 16) =
      List.replicate 10 none := by decide
theorem test_decode_reason : decodeCmd 0x6ab#11 = .illegal (.reservedOp 6#3) ∧
    decodeCmd 0x301#11 = .illegal (.operandNotZero 3#3 1#8) := by decide
theorem test_decode_above_format : decodeTableWord 8 4 = none ∧ decodeTableWord 16 0x800 = none := by decide
theorem test_encode_update : encode (.update 0x48#8) = .cmd 0x248#11 := by decide
theorem test_command_text : commandText (.update 0x48#8) = some "UPDATE 0x48" := by decide

/-! ## Selector generator and the order of bytes -/

/-- V-SEL-4. -/
theorem test_selector_codes :
    (List.range 16).map (fun i =>
      (code 0x0123456789abcdeffedcba98765432100123456789abcdeffedcba9876543210#256 i).toNat) =
      [0, 0, 0, 1, 0, 2, 0, 3, 1, 0, 1, 1, 1, 2, 1, 3] := by decide

/-- V-SEL-2: the last layer. -/
theorem test_selector_layer_128 : layerGate Config.IV 128 = .mtof := by decide

/-- 20_memory.md R44, R45: the first byte is the most significant. -/
theorem test_first_byte_most_significant :
    (blockOfBytes (0x80#8 :: List.replicate 31 0#8)).getLsbD 255 = true ∧
      byteOf 0x4800000000000000000000000000000000000000000000000000000000000001#256 0 = 0x48#8 ∧
      byteOf 0x4800000000000000000000000000000000000000000000000000000000000001#256 31 = 0x01#8 := by decide

/-- R45: lowercase, most significant first. -/
theorem test_hex_digits :
    (hexOf 0xe2393350a2359d10bcf03be2a9aecb17f7a920289bd8e1b8e02a72e8f82e2125#256).take 8 =
      ['e', '2', '3', '9', '3', '3', '5', '0'] := by decide

/-! ## Gates, each as an instruction (V-LP-1, V-SP-2, V-SP-3) -/

theorem test_tof_pass1 : lanesAfter (exec .tof (inPass 1 0 0x12345678#32)) = some (List.replicate 8 0x12345e58) := by
  decide
theorem test_tof_pass2_odd_lanes : lanesAfter (exec .tof (inPass 2 1 0xffffffff#32)) =
    some [0xffffffff, 0x6db76db7, 0xffffffff, 0x6db76db7, 0xffffffff, 0x6db76db7, 0xffffffff, 0x6db76db7] := by
  decide
theorem test_mtof_pass1_even_lanes : lanesAfter (exec .mtof (inPass 4 0 0xffffffff#32)) =
    some [0xedb6edb6, 0xffffffff, 0xedb6edb6, 0xffffffff, 0xedb6edb6, 0xffffffff, 0xedb6edb6, 0xffffffff] := by
  decide
theorem test_mtof_pass2 : lanesAfter (exec .mtof (inPass 3 1 0x12345678#32)) = some (List.replicate 8 0x12345668) := by
  decide
theorem test_fre_pass1 : lanesAfter (exec .fre (inPass 1 0 0xdeadbeef#32)) = some (List.replicate 8 0xeeb6bef7) := by
  decide
theorem test_fre_pass2 : lanesAfter (exec .fre (inPass 1 1 0xdeadbeef#32)) = some (List.replicate 8 0xbf2bdf5f) := by
  decide
theorem test_mfre_pass1 : lanesAfter (exec .mfre (inPass 1 0 0xdeadbeef#32)) = some (List.replicate 8 0xbe9bdf5f) := by
  decide
theorem test_mfre_pass2 : lanesAfter (exec .mfre (inPass 1 1 0xdeadbeef#32)) = some (List.replicate 8 0xddad7def) := by
  decide

/-- A step in a pass at layer 3 fetches `SEL(IV, 3)` = 0, TOF (V-SEL-2), and goes on to pass 2. -/
theorem test_step_in_pass : lanesAfter (step (inPass 3 0 0x12345678#32)) = some (List.replicate 8 0x12345e58) := by
  decide

/-! ## Layers and small networks -/

/-- V-LAY-3: the last layer. -/
theorem test_layer_128 : joinBlock (layer (splitBlock (BitVec.allOnes 256)) Config.IV 128) =
    0x8f3ce22e8ec8bb6e78763679164a245af4e00feda60eee0e5f894f1254e3a12a#256 := by decide

/-- V-INV-1. -/
theorem test_inv_layer_3 : joinBlock (invLayer (splitBlock (BitVec.allOnes 256)) Config.IV 3) =
    0xad35d06b97c8fb664a7304701e4a247acea927a4ae063606b6c0ed7f55e7a12a#256 := by decide

/-- V-T16-2. -/
theorem test_toy_network : netOn 1 16 8 0x1234#16 0x1b1b#16 = 0x1330#16 ∧ netOn 1 16 8 0x8001#16 0x6c93#16 = 0xd001#16 ∧
    invNetOn 1 16 8 0x1330#16 0x1b1b#16 = 0x1234#16 := by decide +kernel

/-- With E = 0 every layer is TOF and adds nothing, and TOF keeps 0 (R81, R100): INVNET(0, 0) = 0 (R137). -/
theorem test_invnet_of_zero : INVNET 0#256 0#256 = 0#256 := by
  rw [INVNET_eq, show splitBlock 0#256 = Vector.replicate 8 0#32 by decide, invLayers_zero]
  decide

/-! ## Padding (V-PAD-1, V-INV-4) -/

theorem test_pad_one_byte : padBlk [0x61#8] = 0x61#8 :: List.replicate 31 0x1f#8 := by decide
theorem test_pad_empty : padBlk [] = List.replicate 32 0x20#8 := by decide
theorem test_unpad_empty :
    unpad 0x2020202020202020202020202020202020202020202020202020202020202020#256 = some 0 := by decide
theorem test_unpad_refuses : unpad 0#256 = none ∧ unpad 0x21#256 = none ∧ unpad 0x0102#256 = none := by decide
theorem test_block_counts : [0, 31, 32, 33, 63, 64].map (fun n => blockCount (List.replicate n 0#8)) = [1, 1, 2, 2, 2, 3] := by
  decide

/-! ## Commands (95_test_vectors.md section 10) -/

theorem test_nop_keeps_status : statusOf (exec .nop armed) = some 0x03 := by decide

/-- P4 step 12. -/
theorem test_reset_clears : statusOf (exec .reset { armed with status := { armed.status with err := true, errcode := 2#3 } }) =
    some 0x00 ∧ countersOf (exec .reset armed) = some (0, 0) := by decide

/-- P4 step 2. -/
theorem test_update_appends : bufOf (exec (.update 0x61#8) fresh) = some ([(0, 0x61#8)], 1) := by decide

/-- P4 step 4. -/
theorem test_update_after_finalize : statusOf (exec (.update 0x62#8) finalized) = some 0x51 ∧
    bufOf (exec (.update 0x62#8) finalized) = some ([], 0) := by decide

/-- P6: FINALIZE on a full log. -/
theorem test_finalize_overflow : statusOf (exec .finalize almostFullOverflow) = some 0x09 ∧
    countersOf (exec .finalize almostFullOverflow) = some (1, 0) := by decide +kernel

/-- P5 step 5: an error does not block FINALIZE. -/
theorem test_finalize_with_error : statusOf (exec .finalize latchedState) = some 0x31 := by decide +kernel

/-- P1 and P6: INV_BEGIN arms the path, or raises LOG_UNAVAIL. -/
theorem test_inv_begin : statusOf (exec .invBegin finalized) = some 0x03 ∧ countersOf (exec .invBegin finalized) = some (1, 1) ∧
    statusOf (exec .invBegin overflowed) = some 0x79 := by decide

/-- V-ERR-1: STATE_ERR before LOG_UNAVAIL. -/
theorem test_inv_begin_priority :
    statusOf (exec .invBegin { almostFullOverflow with status := { Status.zero with lovf := true } }) = some 0x58 := by
  decide

/-- P3: the third INV_STEP. -/
theorem test_inv_step_exhausted : statusOf (exec .invStep { midChain with icur := 0 }) = some 0x57 := by decide

/-! ## The host's calls (30_encoding.md R73, R74, R77) -/

/-- P1: `digest()` on a finalized instance issues no command and returns the 32 bytes of V-HASH-1. -/
theorem test_digest_of_finalized : ∃ bs, runDigest finalized = .next (finalized, bs) ∧ bs.length = 32 ∧
    bs.take 4 = [0xe2#8, 0x39#8, 0x33#8, 0x50#8] :=
  ⟨_, runDigest_finalized rfl, by decide, by decide⟩

/-- `hexdigest()` there: the first characters of V-HASH-1. -/
theorem test_hexdigest_of_finalized : ∃ cs, runHexdigest finalized = .next (finalized, cs) ∧ cs.length = 64 ∧
    cs.take 8 = ['e', '2', '3', '9', '3', '3', '5', '0'] :=
  ⟨_, runHexdigest_of_runDigest (runDigest_finalized rfl), by decide, by decide⟩

/-- `digest()` on an instance that is not finalized issues FINALIZE. -/
theorem test_digest_finalizes : ∃ t, exec .finalize oneByte = .next t ∧ runDigest oneByte = .next (t, t.rawDigest) :=
  ⟨_, rfl, runDigest_of_finalize rfl rfl⟩

/-- `finalize()` on a finalized instance issues FINALIZE again: STATE_ERR. -/
theorem test_finalize_call_again : ∃ t, runFinalize finalized = .next (t, t.rawDigest) ∧ t.portStatus = 0x51#8 :=
  ⟨_, rfl, by decide⟩

/-! ## The step -/

/-- P5 steps 1 and 2: illegal words. -/
theorem test_step_illegal : statusOf (step { fresh with input := [.cmd 0x6ab#11] }) = some 0x30 ∧
    statusOf (step { latchedState with input := [.cmd 0x101#11] }) = some 0x30 := by decide

/-- V-ERR-1: an illegal word on a finalized instance raises ILLEGAL_CMD. -/
theorem test_step_illegal_first : statusOf (step { finalized with input := [.cmd 0x301#11] }) = some 0x31 := by
  decide

/-- A word placed by its number in the opcode table runs next, from reset. -/
theorem test_placed_update : bufOf (step (State.reset.withFetchWord 16 0x261)) = some ([(0, 0x61#8)], 1) := by
  decide

/-- A selector code placed by its number runs next, as pass 1 of layer 1: FRE on lanes that are zero. -/
theorem test_placed_gate : (State.reset.withFetchWord 8 2).fetch = .gate .fre (State.reset.withFetchWord 8 2).e := by
  rfl

theorem test_core_reset : core.reset = State.resetWith Config.logDepth := rfl

/-! ## Witnesses: states and operands that meet the hypotheses of the obligations, at the ends of their ranges -/

theorem witness_CommandDecoderFollowsTable :
    (0x000#11 &&& 0x7ff#11 = 0x000#11) ∧ (0x100#11 &&& 0x7ff#11 = 0x100#11) ∧
    (0x200#11 &&& 0x700#11 = 0x200#11) ∧ (0x2ff#11 &&& 0x700#11 = 0x200#11) ∧
    (0x300#11 &&& 0x7ff#11 = 0x300#11) ∧ (0x400#11 &&& 0x7ff#11 = 0x400#11) ∧ (0x500#11 &&& 0x7ff#11 = 0x500#11) ∧
    (∃ w : BitVec 11, w = 0x7ff#11 ∧ w ≠ 0x000#11 ∧ w ≠ 0x100#11 ∧ w &&& 0x700#11 ≠ 0x200#11 ∧ w ≠ 0x300#11 ∧ w ≠ 0x400#11 ∧
      w ≠ 0x500#11) := by decide

/-- Both sides of the third-last law: TOF and MTOF act. -/
theorem witness_GateLaws : gate .tof ⟨true, true, false⟩ ≠ ⟨true, true, false⟩ ∧ gate .mtof ⟨false, true, true⟩ ≠ ⟨false, true, true⟩ := by
  decide

/-- An inactive lane, an active one, a triple and a bit left over, at the end of their ranges. -/
theorem witness_GateInstructionIsSublayerPass :
    (¬ LaneActive (inPass 2 1 1#32).l 6) ∧ LaneActive (inPass 2 1 1#32).l 7 ∧ LaneActive (inPass 1 0 1#32).l 7 ∧
    (1 < 2 ∧ 4 < 5) ∧ (31 < 32 ∧ (31 + 1) % 16 = (inPass 1 0 1#32).sub.val) ∧ (0 < 32 ∧ (0 + 1) % 16 = (inPass 2 1 1#32).sub.val) := by
  unfold LaneActive
  decide

theorem witness_GateInstructionBits : LaneActive (inPass 128 1 1#32).l 6 ∧ (1 : Nat) < 2 ∧ (4 : Nat) < 5 ∧ (6 : Nat) < 8 := by
  unfold LaneActive
  decide

theorem witness_SelectorCodesAreStreamBits : (127 : Nat) < 128 ∧ (1 : Nat) ≤ 1 ∧ (128 : Nat) ≤ 128 := by decide

/-- Two blocks that agree in half 1 of lane 7 and differ elsewhere. -/
theorem witness_HalfLanesAreIndependent : (0#256 : Block) ≠ 1#256 ∧
    ∀ j, j < 16 → (laneOf 32 (0#256 : Block) 7).getLsbD (16 * 1 + j) = (laneOf 32 (1#256 : Block) 7).getLsbD (16 * 1 + j) := by
  decide

theorem witness_BytesAndBlocksCorrespond : (padBlk [0x61#8]).length = 32 ∧ (31 : Nat) < 32 := by decide

theorem witness_UnpadUndoesPad : (List.replicate 31 0x61#8).length ≤ 31 ∧ ([] : List Byte).length ≤ 31 := by decide

theorem witness_UnpadAcceptsExactlyPadding :
    unpad 0x2020202020202020202020202020202020202020202020202020202020202020#256 = some 0 := test_unpad_empty

theorem witness_PaddingIsInjective : padMessage [0x61#8] = padMessage [0x61#8] := rfl

theorem witness_UpdateAppendsByte :
    (fresh.status.fin = false ∧ fresh.buflen < 31) ∧
    ({ almostFull with buflen := 30 }.status.fin = false ∧ { almostFull with buflen := 30 }.buflen < 31) := by decide

/-- Both clauses: a log with room and a full one. -/
theorem witness_UpdateCompletesBlock :
    (almostFull.status.fin = false ∧ almostFull.buflen = 31 ∧ (List.replicate 31 0#8).length = 31 ∧
      Buffered almostFull (List.replicate 31 0#8) ∧ almostFull.nblk < almostFull.logDepth) ∧
    (almostFullOverflow.status.fin = false ∧ almostFullOverflow.buflen = 31 ∧ Buffered almostFullOverflow (List.replicate 31 0#8) ∧
      ¬ almostFullOverflow.nblk < almostFullOverflow.logDepth) := by
  unfold Buffered
  decide

theorem witness_FinalizeHashesLastBlock :
    (fresh.status.fin = false ∧ fresh.buflen ≤ 31 ∧ ([] : List Byte).length = fresh.buflen ∧ Buffered fresh [] ∧
      fresh.nblk < fresh.logDepth) ∧
    (almostFullOverflow.status.fin = false ∧ almostFullOverflow.buflen ≤ 31 ∧
      (List.replicate 31 0#8).length = almostFullOverflow.buflen ∧ Buffered almostFullOverflow (List.replicate 31 0#8) ∧
      ¬ almostFullOverflow.nblk < almostFullOverflow.logDepth) := by
  unfold Buffered
  decide

theorem witness_FinalizedInstanceIsTerminal : finalized.status.fin = true ∧ finalized.status.err = false := by decide

theorem witness_FirstErrorIsLatched : fresh.status.err = false ∧ latchedState.status.err = true := by decide

theorem witness_InvBeginArmsInversePath : fresh.status.fin = false ∧
    (overflowed.status.fin = true ∧ overflowed.status.lovf = true) ∧ (finalized.status.fin = true ∧ finalized.status.lovf = false) := by
  decide

/-- Not armed; armed with all blocks recovered; armed on a digest and a log entry whose block is no padding. -/
theorem witness_InvStepErrors :
    finalized.status.ia = false ∧ ({ armed with icur := 0 } : State).icur = 0 ∧
    (∃ s : State, s = { armed with e := 0#256, log := [(0, 0#256)] } ∧ s.status.ia = true ∧ 0 < s.icur ∧ s.icur = s.nblk ∧
      s.nblk ≤ s.logDepth ∧ Memory.read s.log (s.icur - 1) = some 0#256 ∧ unpad (INVNET s.e 0#256) = none) := by
  refine ⟨rfl, rfl, _, rfl, rfl, by decide, rfl, by decide, rfl, ?_⟩
  have h : INVNET ({ armed with e := 0#256, log := [(0, 0#256)] } : State).e 0#256 = 0#256 := test_invnet_of_zero
  rw [h]
  exact test_unpad_refuses.1

theorem witness_StepRunsDecodedCommand : ∃ s : State, s = { oneByte with input := [.cmd 0x262#11, .rst] } ∧ s.pass = .idle ∧
    s.input = .cmd 0x262#11 :: [.rst] ∧ decodeCmd 0x262#11 = .instr (.update 0x62#8) := ⟨_, rfl, rfl, rfl, by decide⟩

theorem witness_StepRaisesIllegalCommand : ∃ s : State, s = { finalized with input := [.cmd 0x301#11] } ∧ s.pass = .idle ∧
    s.input = .cmd 0x301#11 :: [] ∧ (0x301#11 : BitVec 11).toNat / 256 ≠ 2 ∧ (0x301#11 : BitVec 11).toNat % 256 ≠ 0 ∧
    6 ≤ (0x600#11 : BitVec 11).toNat / 256 := ⟨_, rfl, rfl, rfl, by decide, by decide, by decide⟩

/-- The four positions the clauses speak of, and both commands. -/
theorem witness_StepRunsSelectorCode :
    ((inPass 1 0 7#32).pass = .forward true ∧ NoReset (inPass 1 0 7#32) ∧ 1 ≤ (inPass 1 0 7#32).l ∧ (inPass 1 0 7#32).sub = 0) ∧
    ((inPass 127 1 7#32).sub = 1 ∧ (inPass 127 1 7#32).l < 128) ∧
    ((inPass 128 1 7#32).sub = 1 ∧ (inPass 128 1 7#32).l = 128 ∧
      ({ inPass 128 1 7#32 with pass := .forward false } : State).pass = .forward false) := by
  unfold NoReset
  decide

theorem witness_StepRunsSelectorCodeBackwards :
    (∃ s : State, s = armed.loadInverse armed.e Config.IV ∧ s.pass = .inverse ∧ NoReset s ∧ 1 ≤ s.l ∧ s.l ≤ 128 ∧ 0 < s.icur ∧
      s.icur ≤ s.logDepth ∧ Memory.read s.log (s.icur - 1) = some Config.IV ∧ s.sub = 1) ∧
    (∃ s : State, s = { armed.loadInverse armed.e Config.IV with l := 2, sub := 0 } ∧ s.pass = .inverse ∧ NoReset s ∧ s.sub = 0 ∧
      1 < s.l ∧ Memory.read s.log (s.icur - 1) = some Config.IV) := by
  unfold NoReset
  refine ⟨⟨_, rfl, rfl, by decide, by decide, by decide, by decide, by decide, rfl, rfl⟩,
    _, rfl, rfl, by decide, rfl, by decide, rfl⟩

/-- The last position of an inverse pass (layer 1, s = 0; `SEL(IV, 1)` is MTOF): a block below the last, and the last one with
lanes that end in valid padding (the empty message's, V-NET-6) and in none. -/
def lastInverse (s : State) (x : Lanes) : State := { s with pass := .inverse, l := 1, sub := 0, x := x }

/-- The lanes that MTOF in pass 1 takes to 32 bytes of 0x20. -/
def beforePadding : Lanes := subPass .mtof 0 1 (Vector.replicate 8 0x20202020#32)

theorem witness_StepRunsSelectorCodeBackwards_last :
    (∃ s : State, s = lastInverse midChain beforePadding ∧ s.pass = .inverse ∧ NoReset s ∧ s.sub = 0 ∧ s.l = 1 ∧ 0 < s.icur ∧
      s.icur ≤ s.logDepth ∧ Memory.read s.log (s.icur - 1) = some Config.IV ∧ s.icur < s.nblk) ∧
    (∃ s t : State, s = lastInverse armed beforePadding ∧ s.pass = .inverse ∧ NoReset s ∧ s.sub = 0 ∧ s.l = 1 ∧ 0 < s.icur ∧
      s.icur ≤ s.logDepth ∧ Memory.read s.log (s.icur - 1) = some Config.IV ∧ s.icur = s.nblk ∧
      exec (decodeSel (Config.IV.extractLsb' (256 - 2 * s.l) 2)) s = .next t ∧ unpad (joinBlock t.x) = some 0) ∧
    (∃ s t : State, s = lastInverse armed (Vector.replicate 8 0#32) ∧ s.pass = .inverse ∧ NoReset s ∧ s.sub = 0 ∧ s.l = 1 ∧
      Memory.read s.log (s.icur - 1) = some Config.IV ∧ s.icur = s.nblk ∧
      exec (decodeSel (Config.IV.extractLsb' (256 - 2 * s.l) 2)) s = .next t ∧ unpad (joinBlock t.x) = none) := by
  unfold NoReset
  refine ⟨⟨_, rfl, rfl, by decide, rfl, rfl, by decide, by decide, rfl, by decide⟩,
    ⟨_, State.gateAt .mtof (lastInverse armed beforePadding), rfl, rfl, by decide, rfl, rfl, by decide, by decide, rfl, rfl, rfl,
      by decide⟩,
    _, State.gateAt .mtof (lastInverse armed (Vector.replicate 8 0#32)), rfl, rfl, by decide, rfl, rfl, rfl, rfl, rfl, by decide⟩

theorem witness_ResetPinTakesEffectAnywhere : ∃ s : State, s = { inPass 64 1 7#32 with input := [.rst, .cmd 0x300#11] } ∧
    s.input = .rst :: [.cmd 0x300#11] ∧ s.pass = .forward true := ⟨_, rfl, rfl, rfl⟩

theorem witness_IdleMachineWaits : finalized.pass = .idle ∧ finalized.input = [] := ⟨rfl, rfl⟩

theorem witness_PlacedWordIsFetched : decodeTableWord 8 3 = some .mfre ∧ decodeTableWord 16 0x2ff = some (.update 0xff#8) := by
  decide

theorem witness_PassStepsRefineAtomicCommands :
    (NoReset oneByte ∧ oneByte.status.fin = false ∧ oneByte.buflen ≤ 31 ∧ [0x61#8].length = oneByte.buflen ∧ Buffered oneByte [0x61#8]) ∧
    (NoReset almostFull ∧ almostFull.status.fin = false ∧ almostFull.buflen = 31 ∧ (List.replicate 31 0#8).length = 31 ∧
      Buffered almostFull (List.replicate 31 0#8)) ∧
    (NoReset armed ∧ armed.status.ia = true ∧ 0 < armed.icur ∧ armed.icur = armed.nblk ∧ armed.nblk ≤ armed.logDepth ∧
      Memory.read armed.log (armed.icur - 1) = some Config.IV) ∧
    (NoReset midChain ∧ midChain.status.ia = true ∧ 0 < midChain.icur ∧ midChain.icur < midChain.nblk ∧
      midChain.nblk ≤ midChain.logDepth ∧ (Memory.read midChain.log (midChain.icur - 1)).isSome = true ∧
      (Memory.read midChain.log midChain.icur).isSome = true) := by
  unfold NoReset Buffered
  decide

/-- The invariant holds after UPDATE 0x61, with a word waiting on the command port. -/
theorem witness_StepKeepsInvariant : Inv { oneByte with input := [.cmd 0x300#11] } := by
  refine ⟨⟨rfl, by decide, by decide, by decide, by decide, by decide, by decide, by decide, by decide, by decide, by decide, by decide,
    by decide, by decide, by decide, by decide⟩, [0x61#8], ⟨fun _ => ⟨rfl, by decide⟩, rfl, by decide, by decide, by decide⟩⟩

/-- The regular state of that witness meets the hypothesis of PortsShowCounters. -/
theorem witness_PortsShowCounters : Regular { oneByte with input := [.cmd 0x300#11] } := witness_StepKeepsInvariant.1

theorem witness_StepKeepsMemoryCanonical : ∃ t, step { midChain with input := [.cmd 0x000#11] } = .next t ∧
    Memory.wf midChain.buf = true ∧ Memory.below 32 midChain.buf = true ∧ Memory.wf midChain.log = true ∧
    Memory.below midChain.logDepth midChain.log = true := ⟨_, rfl, by decide⟩

/-- One command of each clause: UPDATE, FINALIZE, INV_BEGIN, INV_STEP, a gate, NOP and RESET answer a next state; an error raised on none. -/
theorem witness_RegistersHaveOnlyTheirWriters :
    (∃ t, exec (.update 0x61#8) fresh = .next t) ∧ (∃ t, exec .finalize fresh = .next t) ∧ (∃ t, exec .invBegin finalized = .next t) ∧
    (∃ t, exec .invStep finalized = .next t) ∧ (∃ t, exec .fre (inPass 1 0 7#32) = .next t) ∧ midChain.status.rv = true ∧
    (∃ t, exec .nop midChain = .next t) ∧ (∃ t, exec .reset latchedState = .next t) ∧ latchedState.status.err = true ∧
    Instr.hostIssued .fre = false ∧ (finalized.status.ia = false ∧ finalized.status.err = false) ∧ fresh.buflen ≠ 31 := by
  exact ⟨⟨_, rfl⟩, ⟨_, rfl⟩, ⟨_, rfl⟩, ⟨_, rfl⟩, ⟨_, rfl⟩, rfl, ⟨_, rfl⟩, ⟨_, rfl⟩, rfl, rfl, ⟨rfl, rfl⟩, by decide⟩

theorem witness_ErrorLatchIsSticky : ∃ t, exec .invBegin latchedState = .next t ∧ Instr.invBegin ≠ .reset ∧
    latchedState.status.err = true := ⟨_, rfl, by decide⟩

theorem witness_LatchedErrorBlocksNothing : SameButLatch fresh latchedState ∧ ∃ t, exec .finalize fresh = .next t :=
  ⟨rfl, _, rfl⟩

theorem witness_DigestIsImmutable : finalized.status.fin = true ∧ Instr.invBegin ≠ .reset ∧ ∃ t, exec .invBegin finalized = .next t :=
  ⟨rfl, by decide, _, rfl⟩

theorem witness_PositionIsDeadBetweenCommands : Instr.hostIssued .finalize = true ∧
    SameButPosition fresh { fresh with x := Vector.replicate 8 5#32, l := 77, sub := 1 } ∧ ∃ t, exec .finalize fresh = .next t :=
  ⟨rfl, rfl, _, rfl⟩

/-- Live bytes and words alike, dead ones different. -/
theorem witness_DeadMemoryIsNeverRead : ∃ s' : State, s' = { armed with buf := [(5, 1#8)], log := [(0, Config.IV), (3, 9#256)] } ∧
    Instr.hostIssued .invBegin = true ∧ s' = { armed with buf := s'.buf, log := s'.log } ∧ armed.icur ≤ armed.nblk ∧
    (∀ j, j < armed.buflen → Memory.read s'.buf j = Memory.read armed.buf j) ∧
    (∀ j, j < armed.nblk → Memory.read s'.log j = Memory.read armed.log j) ∧ ∃ t, exec .invBegin armed = .next t := by
  refine ⟨_, rfl, rfl, rfl, by decide, by decide, ?_, _, rfl⟩
  intro j hj
  have h : j = 0 := by simpa [armed, finalized] using hj
  subst h
  rfl

/-- A depth for the calls, and an instance that has accepted one byte and is not finalized, for the law of `update`. -/
theorem witness_ChunksMakeNoDifference : 1 ≤ fresh.logDepth ∧ Regular oneByte ∧ Follows [0x61#8] oneByte ∧
    oneByte.status.fin = false := by
  refine ⟨by decide, ⟨rfl, by decide, by decide, by decide, by decide, by decide, by decide, by decide, by decide, by decide, by decide,
    by decide, by decide, by decide, by decide, by decide⟩, ⟨fun _ => ⟨rfl, by decide⟩, rfl, by decide, by decide, by decide⟩, rfl⟩

theorem witness_CommandsComputeHash : 1 ≤ fresh.logDepth := by decide

/-- A message that fills the log, and the first and last INV_STEP. -/
theorem witness_InvertRecoversMessage : blockCount (List.replicate 127 0x61#8) ≤ fresh.logDepth ∧
    1 ≤ blockCount (List.replicate 127 0x61#8) ∧ 4 ≤ blockCount (List.replicate 127 0x61#8) := by decide +kernel

theorem witness_NopChangesNothing : ∃ s : State, s = { latchedState with input := [.cmd 0x0ff#11] } ∧ s.pass = .idle ∧
    s.input = .cmd 0x0ff#11 :: [] ∧ (0x0ff#11 : BitVec 11).toNat / 256 = 0 ∧ (0x001#11 : BitVec 11).toNat % 256 ≠ 0 :=
  ⟨_, rfl, rfl, rfl, by decide, by decide⟩

theorem witness_LongMessageHashesWithoutInverse : 1 ≤ fresh.logDepth ∧ fresh.logDepth < blockCount (List.replicate 128 0x61#8) := by
  decide +kernel

/-! ## A whole inverse pass on numerals, and what rests on it -/

/-- V-NET-6 and V-INV-3 read backwards (R137, R138): the last block of the empty message. -/
theorem test_invnet_of_empty_digest :
    INVNET 0xe2393350a2359d10bcf03be2a9aecb17f7a920289bd8e1b8e02a72e8f82e2125#256 Config.IV =
      0x2020202020202020202020202020202020202020202020202020202020202020#256 := by
  rw [INVNET_eq_wordInvLayers]
  decide +kernel

/-- P1 and P6: the only block of the empty message. -/
theorem test_inv_step_empty_message : ∃ t, exec .invStep armed = .next t ∧ t.portStatus = 0x07#8 ∧ t.rcnt = 0 ∧ t.icur = 0 ∧
    t.rblk = 0x2020202020202020202020202020202020202020202020202020202020202020#256 := by
  refine ⟨((armed.loadInverse armed.e Config.IV).runPass Config.IV).finishInverse, rfl, ?_⟩
  rw [State.inverseStep_eq]
  have h : INVNET armed.e Config.IV = 0x2020202020202020202020202020202020202020202020202020202020202020#256 :=
    test_invnet_of_empty_digest
  rw [h]
  have hc : armed.recoveredCount 0x2020202020202020202020202020202020202020202020202020202020202020#256 = some 0 :=
    test_unpad_empty
  rw [hc]
  exact ⟨by decide, rfl, rfl, rfl⟩

/-- The last block, and a block below it. -/
theorem witness_InvStepRecoversBlock :
    (armed.status.ia = true ∧ 0 < armed.icur ∧ armed.icur = armed.nblk ∧ armed.nblk ≤ armed.logDepth ∧
      Memory.read armed.log (armed.icur - 1) = some Config.IV ∧ unpad (INVNET armed.e Config.IV) = some 0) ∧
    (midChain.status.ia = true ∧ 0 < midChain.icur ∧ midChain.icur < midChain.nblk ∧ midChain.nblk ≤ midChain.logDepth ∧
      Memory.read midChain.log (midChain.icur - 1) = some Config.IV ∧
      Memory.read midChain.log midChain.icur =
        some 0x03cf64e831310000cec0aa4b814ea238c60ee05a308001d800280063cd03250b#256) := by
  refine ⟨⟨rfl, by decide, rfl, by decide, rfl, ?_⟩, rfl, by decide, by decide, by decide, rfl, rfl⟩
  have h : INVNET armed.e Config.IV = 0x2020202020202020202020202020202020202020202020202020202020202020#256 :=
    test_invnet_of_empty_digest
  rw [h]
  exact test_unpad_empty

end Sys2Proof.Tests
end

/-! ## Scope (00_scope.md): the memories under a step, the layers at every width, a block pass step by step, the selector codes -/

section
namespace Sys2Proof.Safety
open Sys2Proof.Machine

/-! ### The position and everything else (10_state.md R12, R13) -/

variable {s t u : State}

theorem SameButPosition.trans (hst : SameButPosition s t) (htu : SameButPosition t u) : SameButPosition s u := by
  unfold SameButPosition at *
  rw [← htu, ← hst]

theorem SameButPosition.pass_eq (h : SameButPosition s t) : t.pass = s.pass := by rw [← h]
theorem SameButPosition.buf_eq (h : SameButPosition s t) : t.buf = s.buf := by rw [← h]
theorem SameButPosition.log_eq (h : SameButPosition s t) : t.log = s.log := by rw [← h]
theorem SameButPosition.logDepth_eq (h : SameButPosition s t) : t.logDepth = s.logDepth := by rw [← h]
theorem SameButPosition.input_eq (h : SameButPosition s t) : t.input = s.input := by rw [← h]

/-- The encoding source of a pass does not depend on the position (41_selector.md R92). -/
theorem SameButPosition.passSource_eq (h : SameButPosition s t) : t.passSource = s.passSource := by
  rw [← h]; rfl

end Sys2Proof.Safety
end

section
namespace Sys2Proof.Machine
open Sys2Proof.Safety

/-! ### What one step can do -/

/-- If a step answers a next state, it waited, took the reset pin, ran a whole command, latched ILLEGAL_CMD, or ran one selector code. -/
theorem step_next_cases {s t : State} (h : step s = .next t) :
    (s.fetch = .wait ∧ t = s) ∨
    (s.fetch = .reset ∧ t = s.consume.toReset) ∨
    (∃ i, s.fetch = .command i ∧ exec i s.consume = .next t) ∨
    (∃ why, s.fetch = .illegal why ∧ t = s.consume.raiseErr .illegalCmd) ∨
    (∃ i src u, s.fetch = .gate i src ∧ exec i s = .next u ∧ t = u.afterGate src) := by
  unfold step at h
  cases hf : s.fetch with
  | wait => rw [hf] at h; cases h; exact Or.inl ⟨rfl, rfl⟩
  | reset => rw [hf] at h; cases h; exact Or.inr (Or.inl ⟨rfl, rfl⟩)
  | command i => rw [hf] at h; exact Or.inr (Or.inr (Or.inl ⟨i, rfl, h⟩))
  | illegal why => rw [hf] at h; cases h; exact Or.inr (Or.inr (Or.inr (Or.inl ⟨why, rfl, rfl⟩)))
  | gate i src =>
    simp only [hf] at h
    split at h
    · next u hu => cases h; exact Or.inr (Or.inr (Or.inr (Or.inr ⟨i, src, u, rfl, hu, rfl⟩)))
    · cases h
    · cases h
  | stuck f => rw [hf] at h; cases h

/-! ### What moves the position alone -/

theorem State.gateAt_sameButPosition (g : Gate) (s : State) : SameButPosition s (s.gateAt g) := rfl

theorem State.advance_sameButPosition (src : Block) (s : State) : SameButPosition s (s.advance src) := by
  unfold State.advance
  split
  · rfl
  · split_ifs <;> rfl
  · split_ifs <;> rfl

theorem State.subStep_sameButPosition (src : Block) (s : State) : SameButPosition s (s.subStep src) :=
  (s.gateAt_sameButPosition _).trans (State.advance_sameButPosition src _)

theorem State.subSteps_sameButPosition (src : Block) (n : Nat) (s : State) : SameButPosition s (s.subSteps src n) := by
  induction n generalizing s with
  | zero => rfl
  | succ n ih => exact (s.subStep_sameButPosition src).trans (ih (s.subStep src))

/-! ### The memories under a step (20_memory.md R40, R41; 00_scope.md R4) -/

/-- BUF and LOG are in canonical form and list no address that does not exist. -/
structure State.MemoryCanonical (s : State) : Prop where
  bufWf : Memory.wf s.buf = true
  bufBelow : Memory.below Config.blockBytes s.buf = true
  logWf : Memory.wf s.log = true
  logBelow : Memory.below s.logDepth s.log = true

/-- What a step from `s` to `t` does to the memories: the canonical form is kept, and so is LOGDEPTH. -/
structure KeepsMemory (s t : State) : Prop where
  canonical : s.MemoryCanonical → t.MemoryCanonical
  logDepth_eq : t.logDepth = s.logDepth

theorem KeepsMemory.trans {s t u : State} (hst : KeepsMemory s t) (htu : KeepsMemory t u) : KeepsMemory s u :=
  ⟨htu.canonical ∘ hst.canonical, htu.logDepth_eq.trans hst.logDepth_eq⟩

/-- An update that writes neither memory keeps them. -/
theorem KeepsMemory.of_eq {s t : State} (hbuf : t.buf = s.buf) (hlog : t.log = s.log) (hdepth : t.logDepth = s.logDepth) :
    KeepsMemory s t where
  canonical h := ⟨hbuf ▸ h.bufWf, hbuf ▸ h.bufBelow, hlog ▸ h.logWf, by rw [hlog, hdepth]; exact h.logBelow⟩
  logDepth_eq := hdepth

theorem KeepsMemory.of_sameButPosition {s t : State} (h : SameButPosition s t) : KeepsMemory s t :=
  .of_eq h.buf_eq h.log_eq h.logDepth_eq

theorem State.consume_keepsMemory (s : State) : KeepsMemory s s.consume := .of_eq rfl rfl rfl

theorem State.raiseErr_keepsMemory (c : ErrCode) (s : State) : KeepsMemory s (s.raiseErr c) :=
  .of_eq (s.raiseErr_buf c) (s.raiseErr_log c) (s.raiseErr_logDepth c)

theorem State.endPass_keepsMemory (s : State) : KeepsMemory s s.endPass := .of_eq rfl rfl rfl

/-- A reset empties both memories. -/
theorem State.toReset_keepsMemory (s : State) : KeepsMemory s s.toReset where
  canonical _ := ⟨rfl, rfl, rfl, rfl⟩
  logDepth_eq := rfl

/-- A byte stored below 32, whatever BUFLEN becomes. -/
theorem State.bufWrite_keepsMemory {s : State} {a : Nat} (ha : a < Config.blockBytes) (v : Byte) (n : Nat) :
    KeepsMemory s { s with buf := Memory.write s.buf a v, buflen := n } where
  canonical h := ⟨Memory.wf_write _ _ _ h.bufWf, Memory.below_write _ _ ha h.bufBelow, h.logWf, h.logBelow⟩
  logDepth_eq := rfl

/-- BLOCKSTEP writes LOG only at NBLK, and only below LOGDEPTH (43_chunk_pipeline.md R117). -/
theorem State.blockStep_keepsMemory (fin : Bool) (b : Block) (s : State) : KeepsMemory s (s.blockStep fin b) := by
  rw [State.blockStep_eq]
  by_cases hroom : s.nblk < s.logDepth
  · refine ⟨fun h => ?_, rfl⟩
    have hlog := State.logWrite_wf s s.nblk s.e hroom h.logWf h.logBelow
    exact ⟨h.bufWf, h.bufBelow, by simpa [hroom] using hlog.1, by simpa [hroom] using hlog.2⟩
  · exact .of_eq rfl (if_neg hroom) rfl

theorem State.finishInverse_keepsMemory (s : State) : KeepsMemory s s.finishInverse := by
  unfold State.finishInverse
  split
  · exact s.endPass_keepsMemory.trans (State.raiseErr_keepsMemory _ _)
  · exact .of_eq rfl rfl rfl

theorem State.finishPass_keepsMemory (s : State) : KeepsMemory s s.finishPass := by
  unfold State.finishPass
  split
  · exact .of_eq rfl rfl rfl
  · exact .of_eq rfl rfl rfl
  · exact s.finishInverse_keepsMemory

theorem State.afterGate_keepsMemory (src : Block) (s : State) : KeepsMemory s (s.afterGate src) := by
  have hadv := KeepsMemory.of_sameButPosition (s.advance_sameButPosition src)
  unfold State.afterGate
  split
  · exact hadv.trans (State.finishPass_keepsMemory _)
  · exact hadv

theorem execUpdate_keepsMemory {b : Byte} {s t : State} (h : execUpdate b s = .next t) : KeepsMemory s t := by
  obtain ⟨-, rfl⟩ | ⟨-, hlt, rfl⟩ | ⟨-, -, bs, -, -, rfl⟩ := execUpdate_next_cases h
  · exact s.raiseErr_keepsMemory _
  · exact State.bufWrite_keepsMemory (Nat.lt_succ_of_lt hlt) b _
  · exact (State.bufWrite_keepsMemory (by decide) b 32).trans (State.blockStep_keepsMemory _ _ _)

theorem execFinalize_keepsMemory {s t : State} (h : execFinalize s = .next t) : KeepsMemory s t := by
  obtain ⟨-, rfl⟩ | ⟨-, -, r, -, -, rfl⟩ := execFinalize_next_cases h
  · exact s.raiseErr_keepsMemory _
  · exact s.blockStep_keepsMemory _ _

theorem execInvBegin_keepsMemory {s t : State} (h : execInvBegin s = .next t) : KeepsMemory s t := by
  obtain ⟨-, rfl⟩ | ⟨-, -, rfl⟩ | ⟨-, -, rfl⟩ := execInvBegin_next_cases h
  · exact s.raiseErr_keepsMemory _
  · exact s.raiseErr_keepsMemory _
  · exact .of_eq rfl rfl rfl

theorem execInvStep_keepsMemory {s t : State} (h : execInvStep s = .next t) : KeepsMemory s t := by
  obtain ⟨-, rfl⟩ | ⟨-, -, v, ei, -, -, ⟨-, rfl⟩ | ⟨cnt, -, rfl⟩⟩ := execInvStep_next_cases h
  · exact s.raiseErr_keepsMemory _
  · exact s.endPass_keepsMemory.trans (State.raiseErr_keepsMemory _ _)
  · exact .of_eq rfl rfl rfl

/-- A gate instruction writes S alone (40_gates.md R80). -/
theorem exec_gate_keepsMemory {g : Gate} {s t : State} (h : exec g.instr s = .next t) : KeepsMemory s t := by
  rw [exec_gate_instr] at h
  cases h
  exact .of_sameButPosition (s.gateAt_sameButPosition g)

theorem exec_keepsMemory {i : Instr} {s t : State} (h : exec i s = .next t) : KeepsMemory s t := by
  cases i with
  | tof => exact exec_gate_keepsMemory (g := .tof) h
  | mtof => exact exec_gate_keepsMemory (g := .mtof) h
  | fre => exact exec_gate_keepsMemory (g := .fre) h
  | mfre => exact exec_gate_keepsMemory (g := .mfre) h
  | nop => cases h; exact .of_eq rfl rfl rfl
  | reset => cases h; exact s.toReset_keepsMemory
  | update b => exact execUpdate_keepsMemory h
  | finalize => exact execFinalize_keepsMemory h
  | invBegin => exact execInvBegin_keepsMemory h
  | invStep => exact execInvStep_keepsMemory h

theorem step_keepsMemory {s t : State} (h : step s = .next t) : KeepsMemory s t := by
  obtain ⟨-, rfl⟩ | ⟨-, rfl⟩ | ⟨i, -, he⟩ | ⟨why, -, rfl⟩ | ⟨i, src, u, -, he, rfl⟩ := step_next_cases h
  · exact .of_eq rfl rfl rfl
  · exact s.consume_keepsMemory.trans (State.toReset_keepsMemory _)
  · exact s.consume_keepsMemory.trans (exec_keepsMemory he)
  · exact s.consume_keepsMemory.trans (State.raiseErr_keepsMemory _ _)
  · exact (exec_keepsMemory he).trans (u.afterGate_keepsMemory src)

/-- Settles O47: every update a step is made of keeps the memories, BUF being written below 32 and LOG below LOGDEPTH only. -/
theorem stepKeepsMemoryCanonical : Obligations.StepKeepsMemoryCanonical := by
  intro s t h hbw hbb hlw hlb
  obtain ⟨hcanon, hdepth⟩ := step_keepsMemory h
  obtain ⟨hbw', hbb', hlw', hlb'⟩ := hcanon ⟨hbw, hbb, hlw, hlb⟩
  exact ⟨hbw', hbb', hlw', hlb', hdepth⟩

/-! ### Layers undone, at every width (40_gates.md R86; 42_network.md R107; 44_inverse.md R135) -/

/-- Every gate is its own inverse (R86). -/
theorem gate_gate (g : Gate) (t : Triple) : gate g (gate g t) = t := by
  obtain ⟨a, b, c⟩ := t
  revert a b c
  cases g <;> decide

section Involutions
variable {nl w N : Nat}

/-- A lane pass undoes itself: each triple is gated twice, every other bit copied twice. -/
theorem lanePass_lanePass (g : Gate) (s : Fin 2) (v : BitVec w) : lanePass g s (lanePass g s v) = v := by
  apply lane_ext s
  · intro t ht
    rw [readTriple_lanePass g s _ ht, readTriple_lanePass g s v ht, gate_gate]
  · intro j hj
    rw [getLsbD_lanePass_outside g s _ hj, getLsbD_lanePass_outside g s v hj]

theorem subPass_subPass (g : Gate) (s : Fin 2) (L : Nat) (x : Vector (BitVec w) nl) :
    subPass g s L (subPass g s L x) = x := by
  ext1 n hn
  rw [subPass_getElem, subPass_getElem]
  split
  · exact lanePass_lanePass g s _
  · rfl

theorem xorStep_xorStep (x y : Vector (BitVec w) nl) : xorStep (xorStep x y) y = x := by
  ext1 n hn
  rw [xorStep_getElem, xorStep_getElem, BitVec.xor_assoc, BitVec.xor_self, BitVec.xor_zero]

theorem invLayer_layer (x : Vector (BitVec w) nl) (e : BitVec N) (L : Nat) : invLayer (layer x e L) e L = x := by
  unfold invLayer layer
  rw [xorStep_xorStep, subPass_subPass, subPass_subPass]

theorem layer_invLayer (x : Vector (BitVec w) nl) (e : BitVec N) (L : Nat) : layer (invLayer x e L) e L = x := by
  unfold invLayer layer
  rw [subPass_subPass, subPass_subPass, xorStep_xorStep]

theorem invLayers_layers (e : BitVec N) (n : Nat) (x : Vector (BitVec w) nl) : invLayers e n (layers e n x) = x := by
  induction n with
  | zero => rfl
  | succ n ih => rw [layers, invLayers, invLayer_layer, ih]

theorem layers_invLayers (e : BitVec N) (n : Nat) (x : Vector (BitVec w) nl) : layers e n (invLayers e n x) = x := by
  induction n generalizing x with
  | zero => rfl
  | succ n ih => rw [layers, invLayers, ih, layer_invLayer]

end Involutions

/-- Settles O15, by induction on the number of layers: each half of a layer and its XOR are their own inverses. -/
theorem layersAreBijectiveAtEveryWidth : Obligations.LayersAreBijectiveAtEveryWidth :=
  fun _ _ _ n e x => ⟨invLayers_layers e n x, layers_invLayers e n x⟩

/-! ### A block pass step by step (00_scope.md R8; 10_state.md R13; 70_reset_and_hazards.md R176) -/

/-- The sequencer is inside a block pass under the source `src`, at a layer that exists, and no reset is about to interrupt it. -/
structure InPass (src : Block) (s : State) : Prop where
  busy : s.pass ≠ .idle
  layer : 1 ≤ s.l ∧ s.l ≤ Config.nLayers
  source : s.passSource = .ok src
  noReset : NoReset s

/-- How many sublayer passes follow the one at this position in the block pass. -/
def State.passLeft (s : State) : Nat :=
  match s.pass with
  | .idle => 0
  | .forward _ => 2 * (Config.nLayers - s.l) + (1 - s.sub.val)
  | .inverse => 2 * (s.l - 1) + s.sub.val

theorem State.passLeft_forward {s : State} {fin : Bool} (hp : s.pass = .forward fin) :
    s.passLeft = 2 * (Config.nLayers - s.l) + (1 - s.sub.val) := by
  simp only [State.passLeft, hp]

theorem State.passLeft_inverse {s : State} (hp : s.pass = .inverse) : s.passLeft = 2 * (s.l - 1) + s.sub.val := by
  simp only [State.passLeft, hp]

/-- How the position moves inside a forward pass (42_network.md R101). -/
theorem State.subStep_forward (src : Block) {s : State} {fin : Bool} (hp : s.pass = .forward fin) :
    (s.sub = 0 → (s.subStep src).l = s.l ∧ (s.subStep src).sub = 1) ∧
    (s.sub = 1 → s.l < Config.nLayers → (s.subStep src).l = s.l + 1 ∧ (s.subStep src).sub = 0) := by
  constructor
  · intro hs
    simp [State.subStep, State.advance, hp, hs]
  · intro hs hl
    simp [State.subStep, State.advance, hp, hs, hl]

/-- How the position moves inside an inverse pass (44_inverse.md R135, R137). -/
theorem State.subStep_inverse (src : Block) {s : State} (hp : s.pass = .inverse) :
    (s.sub = 1 → (s.subStep src).l = s.l ∧ (s.subStep src).sub = 0) ∧
    (s.sub = 0 → 1 < s.l → (s.subStep src).l = s.l - 1 ∧ (s.subStep src).sub = 1) := by
  constructor
  · intro hs
    simp [State.subStep, State.advance, hp, hs]
  · intro hs hl
    simp [State.subStep, State.advance, hp, hs, hl]

theorem State.fetch_of_inPass {src : Block} {s : State} (h : InPass src s) :
    s.fetch = .gate (layerGate src s.l).instr src := by
  have hgate : s.fetchGate = .gate (layerGate src s.l).instr src := by
    unfold State.fetchGate
    rw [if_pos h.layer, h.source]
    rfl
  rw [← hgate]
  have hr := h.noReset
  unfold NoReset at hr
  unfold State.fetch
  cases hp : s.pass with
  | idle => exact absurd hp h.busy
  | forward fin => split <;> simp_all
  | inverse => split <;> simp_all

/-- Inside a pass a step is one sublayer pass, and after the last of them the end of the pass. -/
theorem step_of_inPass {src : Block} {s : State} (h : InPass src s) :
    step s = .next (if s.atEnd then (s.subStep src).finishPass else s.subStep src) := by
  unfold step
  rw [State.fetch_of_inPass h]
  simp only [exec_gate_instr]
  rfl

section Countdown
variable {src : Block} {s : State} (h : InPass src s)
include h

theorem InPass.atEnd_iff : s.atEnd = true ↔ s.passLeft = 0 := by
  have hsub := s.sub.isLt
  obtain ⟨hl1, hl2⟩ := h.layer
  unfold State.atEnd
  cases hp : s.pass with
  | idle => exact absurd hp h.busy
  | forward fin =>
    rw [State.passLeft_forward hp]
    simp only [Bool.and_eq_true, beq_iff_eq, Fin.ext_iff, Fin.val_one]
    omega
  | inverse =>
    rw [State.passLeft_inverse hp]
    simp only [Bool.and_eq_true, beq_iff_eq, Fin.ext_iff, Fin.val_zero]
    omega

/-- Before the last sublayer pass the position moves one on, inside 1..128. -/
theorem InPass.subStep_position (hleft : s.passLeft ≠ 0) :
    (1 ≤ (s.subStep src).l ∧ (s.subStep src).l ≤ Config.nLayers) ∧ (s.subStep src).passLeft + 1 = s.passLeft := by
  have hlayer := h.layer
  have hpass := (s.subStep_sameButPosition src).pass_eq
  cases hp : s.pass with
  | idle => exact absurd hp h.busy
  | forward fin =>
    rw [State.passLeft_forward hp] at hleft ⊢
    rw [State.passLeft_forward (hpass.trans hp)]
    obtain ⟨first, second⟩ := State.subStep_forward src hp
    obtain hs | hs : s.sub = 0 ∨ s.sub = 1 := by omega
    · obtain ⟨hl', hs'⟩ := first hs
      rw [hl', hs', hs]
      exact ⟨hlayer, rfl⟩
    · rw [hs, Fin.val_one] at hleft
      obtain ⟨hl', hs'⟩ := second hs (by omega)
      rw [hl', hs', hs, Fin.val_zero, Fin.val_one]
      omega
  | inverse =>
    rw [State.passLeft_inverse hp] at hleft ⊢
    rw [State.passLeft_inverse (hpass.trans hp)]
    obtain ⟨first, second⟩ := State.subStep_inverse src hp
    obtain hs | hs : s.sub = 1 ∨ s.sub = 0 := by omega
    · obtain ⟨hl', hs'⟩ := first hs
      rw [hl', hs', hs]
      exact ⟨hlayer, rfl⟩
    · rw [hs, Fin.val_zero] at hleft
      obtain ⟨hl', hs'⟩ := second hs (by omega)
      rw [hl', hs', hs, Fin.val_zero, Fin.val_one]
      omega

/-- Until its last sublayer pass a pass stays one, under the same source. -/
theorem InPass.subStep (hleft : s.passLeft ≠ 0) : InPass src (s.subStep src) := by
  have hframe := s.subStep_sameButPosition src
  exact ⟨hframe.pass_eq ▸ h.busy, (h.subStep_position hleft).1, hframe.passSource_eq.trans h.source,
    by unfold NoReset; rw [hframe.input_eq]; exact h.noReset⟩

end Countdown

/-- Stepping through all the sublayer passes that are left ends the pass. -/
theorem runSteps_of_inPass {src : Block} (n : Nat) {s : State} (h : InPass src s) (hn : s.passLeft = n) :
    runSteps (n + 1) s = .next (s.subSteps src (n + 1)).finishPass := by
  induction n generalizing s with
  | zero =>
    rw [runSteps, step_of_inPass h, if_pos (h.atEnd_iff.mpr hn)]
    rfl
  | succ n ih =>
    have hleft : s.passLeft ≠ 0 := by omega
    have hpos := (h.subStep_position hleft).2
    rw [runSteps, step_of_inPass h, if_neg (fun hend => hleft (h.atEnd_iff.mp hend))]
    exact ih (h.subStep hleft) (by omega)

/-- The 256 steps of a whole block pass. -/
theorem runSteps_runPass {src : Block} {s : State} (h : InPass src s) (hn : s.passLeft = 255) :
    runSteps 256 s = .next (s.runPass src).finishPass :=
  runSteps_of_inPass 255 h hn

/-- The pass of BLOCKSTEP, stepped through, ends as BLOCKSTEP does. -/
theorem runSteps_startBlock {s : State} (hr : NoReset s) (fin : Bool) (b : Block) :
    runSteps 256 (s.startBlock fin b) = .next (s.blockStep fin b) := by
  have hin : InPass s.e (s.startBlock fin b) :=
    { busy := by simp
      layer := by simp [Config.nLayers]
      source := by simp [State.passSource]
      noReset := by simpa [NoReset] using hr }
  have hleft : (s.startBlock fin b).passLeft = 255 := by simp [State.passLeft, Config.nLayers]
  have hpass : ((s.startBlock fin b).runPass s.e).pass = .forward fin :=
    (State.subSteps_sameButPosition _ _ _).pass_eq.trans (s.startBlock_pass fin b)
  rw [runSteps_runPass hin hleft, State.finishPass, hpass]
  rfl

/-- The pass of INV_STEP, stepped through, ends as the command does. -/
theorem runSteps_loadInverse {s : State} {ei : Block} (hr : NoReset s) (hsrc : s.inverseSource = .ok ei) (v : Block) :
    runSteps 256 (s.loadInverse v ei) = .next ((s.loadInverse v ei).runPass ei).finishInverse := by
  have hin : InPass ei (s.loadInverse v ei) :=
    { busy := by simp
      layer := by simp [Config.nLayers]
      source := hsrc
      noReset := hr }
  have hpass : ((s.loadInverse v ei).runPass ei).pass = .inverse :=
    (State.subSteps_sameButPosition _ _ _).pass_eq.trans (s.loadInverse_pass v ei)
  rw [runSteps_runPass hin rfl, State.finishPass, hpass]

/-! ### The commands with a block pass, where they run it -/

/-- FINALIZE of live bytes `r` is the block step on their padding (43_chunk_pipeline.md R122). -/
theorem exec_finalize_of_buffered {s : State} {r : List Byte} (hfin : s.status.fin = false) (hlen : s.buflen ≤ 31)
    (hr : r.length = s.buflen) (hbuf : Buffered s r) :
    exec .finalize s = .next (s.blockStep true (blockOfBytes (padBlk r))) := by
  have hlive : s.bufLive = .ok r :=
    (s.bufLive_ok_iff r).mpr ⟨Nat.lt_succ_of_le hlen, hr, fun j hj => hbuf j (hr ▸ hj)⟩
  simp [exec, execFinalize, hfin, hlive]

/-- The 31 live bytes with the 32nd stored behind them. -/
theorem bufBytes_full {s : State} {bs : List Byte} (hbs : bs.length = 31) (hbuf : Buffered s bs) (b : Byte) :
    ({ s with buf := Memory.write s.buf 31 b, buflen := 32 } : State).bufBytes 0 Config.blockBytes = .ok (bs ++ [b]) := by
  rw [State.bufBytes_ok_iff]
  refine ⟨by simp [hbs, Config.blockBytes], fun j hj => ⟨by omega, ?_⟩⟩
  rw [Nat.zero_add, Memory.read_write]
  split
  · next h31 => simp [h31, hbs]
  · next h31 =>
    have hj31 : j < bs.length := by simp only [Config.blockBytes] at hj; omega
    rw [List.getElem?_append_left hj31]
    exact hbuf j hj31

/-- UPDATE of the 32nd byte is the block step on the 32 bytes (R121). -/
theorem exec_update_of_full {s : State} {bs : List Byte} (hfin : s.status.fin = false) (hlen : s.buflen = 31)
    (hbs : bs.length = 31) (hbuf : Buffered s bs) (b : Byte) :
    exec (.update b) s =
      .next (({ s with buf := Memory.write s.buf 31 b, buflen := 32 } : State).blockStep false (blockOfBytes (bs ++ [b]))) := by
  have hw : s.bufWrite 31 b = .ok { s with buf := Memory.write s.buf 31 b } :=
    (s.bufWrite_ok_iff _ _ _).mpr ⟨by decide, rfl⟩
  have hread := bufBytes_full hbs hbuf b
  simp only [Config.blockBytes] at hread
  simp [exec, execUpdate, hfin, hw, hlen, Config.blockBytes, hread]

/-- INV_STEP with both its reads answered is the inverse pass and its end (44_inverse.md R142). -/
theorem exec_invStep_of_reads {s : State} {v ei : Block} (hia : s.status.ia = true) (hpos : s.icur ≠ 0)
    (hv : s.inverseInput = .ok v) (hei : s.inverseSource = .ok ei) :
    exec .invStep s = .next ((s.loadInverse v ei).runPass ei).finishInverse := by
  simp [exec, execInvStep, hia, hpos, hv, hei]

/-- Settles O44, by counting the sublayer passes left down to the last, which ends the pass as the command does. -/
theorem passStepsRefineAtomicCommands : Obligations.PassStepsRefineAtomicCommands := by
  intro s hr
  refine ⟨fun r hfin hlen hrl hbuf => ?_, fun b bs hfin hlen hbs hbuf => ?_, fun v ei hia hpos hle hdepth hei hlast hbelow => ?_⟩
  · rw [exec_finalize_of_buffered hfin hlen hrl hbuf]
    exact runSteps_startBlock hr _ _
  · rw [exec_update_of_full hfin hlen hbs hbuf b]
    exact runSteps_startBlock (s := { s with buf := Memory.write s.buf 31 b, buflen := 32 }) hr _ _
  · have hsrc : s.inverseSource = .ok ei := (s.inverseSource_ok_iff ei).mpr ⟨by omega, by omega, hei⟩
    have hv : s.inverseInput = .ok v := by
      rw [State.inverseInput_ok_iff]
      rcases Nat.eq_or_lt_of_le hle with heq | hlt
      · exact Or.inl ⟨heq, hlast heq⟩
      · exact Or.inr ⟨hlt, by omega, hbelow hlt⟩
    rw [exec_invStep_of_reads hia (by omega) hv hsrc]
    exact runSteps_loadInverse hr hsrc v

/-! ### The selector codes (00_scope.md R7; 41_selector.md R90, R91) -/

/-- Bit j of code i lies j above the lower bit of its pair. -/
theorem getLsbD_code {N : Nat} (e : BitVec N) (i : Nat) {j : Nat} (hj : j < 2) :
    (code e i).getLsbD j = e.getLsbD (N - 2 - 2 * i + j) := by
  simp [code, hj]

theorem getLsbD_code_one {N : Nat} (e : BitVec N) {i : Nat} (hi : 2 * i + 2 ≤ N) :
    (code e i).getLsbD 1 = streamBit e (2 * i) := by
  rw [getLsbD_code e i (by decide), streamBit]
  congr 1
  omega

theorem getLsbD_code_zero {N : Nat} (e : BitVec N) (i : Nat) :
    (code e i).getLsbD 0 = streamBit e (2 * i + 1) := by
  rw [getLsbD_code e i (by decide), streamBit]
  congr 1
  omega

/-- Settles O10: the two bits of a code read through `streamBit`, and SEL as the code before. -/
theorem selectorCodesAreStreamBits : Obligations.SelectorCodesAreStreamBits := by
  intro e
  have hcode : ∀ i, i < 128 →
      (code e i).getLsbD 1 = e.getLsbD (255 - 2 * i) ∧ (code e i).getLsbD 0 = e.getLsbD (254 - 2 * i) := by
    intro i hi
    rw [getLsbD_code e i (by decide), getLsbD_code e i (by decide)]
    exact ⟨congrArg e.getLsbD (by omega), congrArg e.getLsbD (by omega)⟩
  refine ⟨fun i hi => ⟨(hcode i hi).1, (hcode i hi).2, getLsbD_code_one e (by omega), getLsbD_code_zero e i⟩, fun L h1 h128 => ?_⟩
  obtain ⟨hone, hzero⟩ := hcode (L - 1) (by omega)
  exact ⟨hone.trans (congrArg e.getLsbD (by omega)), hzero.trans (congrArg e.getLsbD (by omega))⟩

end Sys2Proof.Machine
end

/-! ## State (10_state.md): the invariant and its step lemma, the reset values, the ports, the writers, what is dead -/

section
namespace Sys2Proof.Machine
open Sys2Proof.Safety

/-! ### The fields after a block step (43_chunk_pipeline.md R117) -/

section BlockStep
variable (fin : Bool) (b : Block) (s : State)

@[simp] theorem State.blockStep_l : (s.blockStep fin b).l = (Config.deadLayer s.free).val + 1 := by
  rw [State.blockStep_eq]; rfl
@[simp] theorem State.blockStep_pass : (s.blockStep fin b).pass = .idle := by rw [State.blockStep_eq]; rfl
@[simp] theorem State.blockStep_e : (s.blockStep fin b).e = NET b s.e := by rw [State.blockStep_eq]
@[simp] theorem State.blockStep_buf : (s.blockStep fin b).buf = s.buf := by rw [State.blockStep_eq]; rfl
@[simp] theorem State.blockStep_buflen : (s.blockStep fin b).buflen = 0 := by rw [State.blockStep_eq]
@[simp] theorem State.blockStep_log : (s.blockStep fin b).log =
    if s.nblk < s.logDepth then Memory.write s.log s.nblk s.e else s.log := by rw [State.blockStep_eq]
@[simp] theorem State.blockStep_logDepth : (s.blockStep fin b).logDepth = s.logDepth := by
  rw [State.blockStep_eq]; rfl
@[simp] theorem State.blockStep_nblk : (s.blockStep fin b).nblk =
    if s.nblk < s.logDepth then s.nblk + 1 else s.nblk := by rw [State.blockStep_eq]
@[simp] theorem State.blockStep_icur : (s.blockStep fin b).icur = s.icur := by rw [State.blockStep_eq]; rfl
@[simp] theorem State.blockStep_rblk : (s.blockStep fin b).rblk = s.rblk := by rw [State.blockStep_eq]; rfl
@[simp] theorem State.blockStep_rcnt : (s.blockStep fin b).rcnt = s.rcnt := by rw [State.blockStep_eq]; rfl
@[simp] theorem State.blockStep_input : (s.blockStep fin b).input = s.input := by rw [State.blockStep_eq]; rfl

theorem State.blockStep_status : (s.blockStep fin b).status =
    { s.status with fin := s.status.fin || fin, lovf := s.status.lovf || !decide (s.nblk < s.logDepth) } := by
  rw [State.blockStep_eq]
  by_cases hroom : s.nblk < s.logDepth <;> cases fin <;> simp [hroom, Status.finalized, Status.overflowed]

/-- The block step overwrites BUFLEN without reading it. -/
theorem State.blockStep_of_buflen (n : Nat) : ({ s with buflen := n } : State).blockStep fin b = s.blockStep fin b := by
  rw [State.blockStep_eq, State.blockStep_eq]; rfl

end BlockStep

/-! ### Values and their parts (10_state.md R11; 20_memory.md R44 to R46) -/

theorem joinBlock_splitBlock (v : Block) : joinBlock (splitBlock v) = v := by
  apply BitVec.eq_of_getLsbD_eq
  intro j hj
  rw [getLsbD_joinBlock _ j hj, splitBlock_getElem, getLsbD_laneOf v _ _ (by omega)]
  exact congrArg v.getLsbD (by omega)

theorem splitBlock_joinBlock (x : Lanes) : splitBlock (joinBlock x) = x := by
  ext1 n hn
  apply BitVec.eq_of_getLsbD_eq
  intro i hi
  rw [splitBlock_getElem, getLsbD_laneOf _ n i hi, getLsbD_joinBlock x _ (by omega)]
  have hlane : 7 - (256 - 32 * (n + 1) + i) / 32 = n := by omega
  have hbit : (256 - 32 * (n + 1) + i) % 32 = i := by omega
  simp only [hlane, hbit]

/-- Byte j of a block is byte j of the bytes it was assembled from. -/
theorem byteOf_blockOfBytes {bs : List Byte} (hbs : bs.length = 32) {j : Nat} (hj : j < 32) :
    byteOf (blockOfBytes bs) j = bs.getD j 0#8 := by
  apply BitVec.eq_of_getLsbD_eq
  intro i hi
  rw [getLsbD_byteOf _ j i hi, getLsbD_blockOfBytes bs hbs _ (by omega)]
  have hbyte : 31 - (248 - 8 * j + i) / 8 = j := by omega
  have hbit : (248 - 8 * j + i) % 8 = i := by omega
  rw [hbyte, hbit]

theorem bytesOf_blockOfBytes {bs : List Byte} (hbs : bs.length = 32) : bytesOf (blockOfBytes bs) = bs := by
  apply List.ext_getElem?
  intro j
  by_cases hj : j < 32
  · rw [bytesOf_getElem? _ j hj, byteOf_blockOfBytes hbs hj]
    simp [hbs, hj]
  · rw [List.getElem?_eq_none (by simp; omega), List.getElem?_eq_none (by omega)]

/-- INVNET undoes NET under the same source (44_inverse.md R138). -/
theorem INVNET_NET (b e : Block) : INVNET (NET b e) e = b := by
  rw [INVNET_eq, NET_eq, splitBlock_joinBlock, invLayers_layers, joinBlock_splitBlock]

/-! ### UNPAD undoes padding (43_chunk_pipeline.md R115; 44_inverse.md R140) -/

theorem length_padBlk {r : List Byte} (hr : r.length ≤ 31) : (padBlk r).length = 32 := by
  simp only [padBlk, padBytes, List.length_append, List.length_replicate, Config.blockBytes]
  omega

/-- The last byte of a padded block is the number of padding bytes. -/
theorem byteOf_padBlk_last {r : List Byte} (hr : r.length ≤ 31) :
    byteOf (blockOfBytes (padBlk r)) 31 = BitVec.ofNat 8 (32 - r.length) := by
  rw [byteOf_blockOfBytes (length_padBlk hr) (by decide), List.getD_eq_getElem?_getD, padBlk, padBytes,
    List.getElem?_append_right hr, List.getElem?_replicate_of_lt (by simp only [Config.blockBytes]; omega)]
  rfl

theorem unpad_padBlk {r : List Byte} (hr : r.length ≤ 31) : unpad (blockOfBytes (padBlk r)) = some r.length := by
  have hlast := byteOf_padBlk_last hr
  have hcount : (BitVec.ofNat 8 (32 - r.length)).toNat = 32 - r.length := by
    rw [BitVec.toNat_ofNat]; omega
  have hback : 32 - (32 - r.length) = r.length := by omega
  have hpad : (padBlk r).drop r.length = List.replicate (32 - r.length) (BitVec.ofNat 8 (32 - r.length)) := by
    simp [padBlk, padBytes, Config.blockBytes]
  unfold unpad
  rw [hlast]
  simp only [hcount]
  rw [if_neg (by omega), bytesOf_blockOfBytes (length_padBlk hr), hback, hpad]
  simp

/-! ### The blocks of a growing message (43_chunk_pipeline.md R116, R118) -/

/-- The bytes of a message after its last block boundary: those that wait in BUF (R119). -/
def lastBytes (m : List Byte) : List Byte := m.drop (Config.blockBytes * (m.length / Config.blockBytes))

theorem length_lastBytes (m : List Byte) : (lastBytes m).length = m.length % Config.blockBytes := by
  rw [lastBytes, List.length_drop, Nat.mod_def]

theorem getElem?_lastBytes (m : List Byte) (j : Nat) :
    (lastBytes m)[j]? = m[m.length - m.length % Config.blockBytes + j]? := by
  rw [lastBytes, List.getElem?_drop]
  congr 2
  have := Nat.div_add_mod m.length Config.blockBytes
  omega

/-- A whole block of a byte sequence does not depend on what follows. -/
theorem blockAt_append {p : List Byte} (q : List Byte) {i : Nat} (hi : Config.blockBytes * (i + 1) ≤ p.length) :
    blockAt (p ++ q) i = blockAt p i := by
  rw [Nat.mul_succ] at hi
  rw [blockAt, blockAt, List.drop_append_of_le_length (by omega),
    List.take_append_of_le_length (by rw [List.length_drop]; omega)]

theorem messageBlock_append {m : List Byte} (bs : List Byte) {i : Nat} (hi : Config.blockBytes * (i + 1) ≤ m.length) :
    messageBlock (m ++ bs) i = messageBlock m i := by
  rw [messageBlock, messageBlock, padMessage, padMessage, List.append_assoc, blockAt_append _ hi, blockAt_append _ hi]

/-- The chain over the whole blocks of a message does not depend on the bytes that follow (R126). -/
theorem chainAt_append {m : List Byte} (bs : List Byte) {n : Nat} (hn : n ≤ m.length / Config.blockBytes) :
    chainAt (m ++ bs) n = chainAt m n := by
  induction n with
  | zero => rfl
  | succ n ih =>
    have hblock : Config.blockBytes * (n + 1) ≤ m.length :=
      (Nat.mul_le_mul_left _ hn).trans (Nat.mul_div_le _ _)
    rw [chainAt, chainAt, messageBlock_append bs hblock, ih (by omega)]

/-- A byte that completes a block: the block is the waiting bytes and that one. -/
theorem messageBlock_completed {m : List Byte} (b : Byte) (hm : m.length % Config.blockBytes = 31) :
    messageBlock (m ++ [b]) (m.length / Config.blockBytes) = blockOfBytes (lastBytes m ++ [b]) := by
  have hdiv := Nat.div_add_mod m.length Config.blockBytes
  have hlen := length_lastBytes m
  rw [messageBlock, padMessage, blockAt_append _ (by
    rw [List.length_append, List.length_singleton, Nat.mul_succ]; simp only [Config.blockBytes] at *; omega), blockAt,
    List.drop_append_of_le_length (by omega)]
  rw [show m.drop (Config.blockBytes * (m.length / Config.blockBytes)) = lastBytes m from rfl,
    List.take_of_length_le (by rw [List.length_append, hlen, hm]; exact Nat.le_refl 32)]

/-- The last block of a message is the padding of its waiting bytes. -/
theorem messageBlock_last (m : List Byte) :
    messageBlock m (m.length / Config.blockBytes) = blockOfBytes (padBlk (lastBytes m)) := by
  have hlen := length_lastBytes m
  have hlt := Nat.mod_lt m.length (show 0 < Config.blockBytes by decide)
  rw [messageBlock, padMessage, blockAt, List.drop_append_of_le_length (Nat.mul_div_le _ _), padBlk, hlen]
  rw [show m.drop (Config.blockBytes * (m.length / Config.blockBytes)) = lastBytes m from rfl,
    List.take_of_length_le (by
      rw [List.length_append, hlen, padBytes, List.length_replicate]; omega)]

theorem unpad_messageBlock_last (m : List Byte) :
    unpad (messageBlock m (m.length / Config.blockBytes)) = some (m.length % Config.blockBytes) := by
  have hlt := Nat.mod_lt m.length (show 0 < Config.blockBytes by decide)
  have hlen := length_lastBytes m
  simp only [Config.blockBytes] at hlt hlen
  rw [messageBlock_last, unpad_padBlk (by omega), length_lastBytes]

end Sys2Proof.Machine
end

section
namespace Sys2Proof.Safety
open Sys2Proof.Machine

/-! ### The invariant after reset (10_state.md R24, R25) -/

theorem atReset_resetWith (d : Nat) : AtReset (State.resetWith d) :=
  ⟨rfl, rfl, rfl, rfl, rfl, rfl, rfl, rfl, rfl, rfl, rfl, rfl, rfl, rfl, rfl⟩

theorem atReset_toReset (s : State) : AtReset s.toReset :=
  ⟨rfl, rfl, rfl, rfl, rfl, rfl, rfl, rfl, rfl, rfl, rfl, rfl, rfl, rfl, rfl⟩

theorem AtReset.regular {s : State} (h : AtReset s) (hdepth : 1 ≤ s.logDepth)
    (hl : 1 ≤ s.l ∧ s.l ≤ Config.nLayers) : Regular s := by
  obtain ⟨hpass, -, hbuflen, hnblk, hicur, hfin, hia, hrv, -, herr, hcode, -, hrcnt, hbuf, hlog⟩ := h
  exact {
    idle := hpass
    depth := hdepth
    layerRange := hl
    buflen := by omega
    nblk := by omega
    icur := by omega
    rcnt := by omega
    fin := by simp [hfin]
    ia := by simp [hia]
    rv := by simp [hrv]
    err := by simp [herr, hcode]
    errcode := by simp [hcode]
    bufLive := by simp [hbuflen]
    logLive := by simp [hnblk]
    bufWf := by rw [hbuf]; exact ⟨rfl, rfl⟩
    logWf := by rw [hlog]; exact ⟨rfl, rfl⟩ }

/-- A reset begins the empty message. -/
theorem AtReset.follows_nil {s : State} (h : AtReset s) : Follows [] s := by
  obtain ⟨-, he, hbuflen, hnblk, -, hfin, -, hrv, hlovf, -, -, -, -, -, -⟩ := h
  have hdone : blocksDone [] s = 0 := by simp [blocksDone, hfin]
  exact {
    buffered := by simp [hbuflen]
    source := by rw [hdone, he]; rfl
    counted := by simp [hdone, hnblk, hlovf]
    logged := by simp [hnblk]
    recovered := by simp [hrv] }

theorem AtReset.inv {s : State} (h : AtReset s) (hdepth : 1 ≤ s.logDepth)
    (hl : 1 ≤ s.l ∧ s.l ≤ Config.nLayers) : Inv s :=
  ⟨h.regular hdepth hl, [], h.follows_nil⟩

/-- The free layer counter keeps its range (10_state.md R13; log 2). -/
theorem deadLayer_range (n : Nat) :
    1 ≤ (Config.deadLayer n).val + 1 ∧ (Config.deadLayer n).val + 1 ≤ Config.nLayers :=
  ⟨Nat.le_add_left _ _, (Config.deadLayer n).isLt⟩

/-! ### The chain the registers carry (10_state.md R24 item 3) -/

theorem blocksDone_open {m : List Byte} {s : State} (h : s.status.fin = false) :
    blocksDone m s = m.length / Config.blockBytes := by
  simp [blocksDone, h]

theorem blocksDone_finalized {m : List Byte} {s : State} (h : s.status.fin = true) : blocksDone m s = blockCount m := by
  simp [blocksDone, h]

/-- E, LOG, NBLK and LOVF are those of `n` processed blocks of `m`. -/
structure Chained (m : List Byte) (n : Nat) (s : State) : Prop where
  source : s.e = chainAt m n
  nblk : s.nblk = min n s.logDepth
  lovf : s.status.lovf = decide (s.logDepth < n)
  logged : ∀ i, i < s.nblk → Memory.read s.log i = some (chainAt m i)

theorem Follows.chained {m : List Byte} {s : State} (h : Follows m s) : Chained m (blocksDone m s) s :=
  ⟨h.source, h.counted.1, h.counted.2, h.logged⟩

section Chain
variable {m : List Byte} {n : Nat} {s : State} (h : Chained m n s)
include h

/-- Bytes after the processed blocks leave the chain as it is. -/
theorem Chained.append (bs : List Byte) (hn : n ≤ m.length / Config.blockBytes) : Chained (m ++ bs) n s where
  source := by rw [chainAt_append bs hn, h.source]
  nblk := h.nblk
  lovf := h.lovf
  logged i hi := by
    have hle : i ≤ n := by have := h.nblk; omega
    rw [h.logged i hi, chainAt_append bs (hle.trans hn)]

/-- The block step goes one block on (43_chunk_pipeline.md R117, R118). -/
theorem Chained.blockStep (fin : Bool) : Chained m (n + 1) (s.blockStep fin (messageBlock m n)) := by
  have hnblk := h.nblk
  refine ⟨?_, ?_, ?_, fun i hi => ?_⟩
  · rw [State.blockStep_e, h.source, chainAt]
  · rw [State.blockStep_nblk, State.blockStep_logDepth]
    split <;> omega
  · rw [State.blockStep_status, State.blockStep_logDepth]
    simp only [h.lovf, ← decide_not, ← Bool.decide_or, decide_eq_decide]
    omega
  · rw [State.blockStep_nblk] at hi
    rw [State.blockStep_log]
    by_cases hroom : s.nblk < s.logDepth
    · rw [if_pos hroom, Memory.read_write]
      rw [if_pos hroom] at hi
      split
      · next heq => rw [h.source, heq, show n = s.nblk by omega]
      · exact h.logged i (by omega)
    · rw [if_neg hroom] at hi ⊢
      exact h.logged i hi

end Chain

theorem Chained.follows_open {m : List Byte} {s : State} (h : Chained m (m.length / Config.blockBytes) s)
    (hfin : s.status.fin = false) (hrv : s.status.rv = false) (hlen : s.buflen = m.length % Config.blockBytes)
    (hbuf : Buffered s (lastBytes m)) : Follows m s where
  buffered _ := ⟨hlen, fun j hj => by
    rw [hlen, ← getElem?_lastBytes]
    exact hbuf j (by rw [length_lastBytes, ← hlen]; exact hj)⟩
  source := by rw [blocksDone_open hfin]; exact h.source
  counted := by rw [blocksDone_open hfin]; exact ⟨h.nblk, h.lovf⟩
  logged := h.logged
  recovered hrv' := by rw [hrv] at hrv'; cases hrv'

theorem Chained.follows_finalized {m : List Byte} {s : State} (h : Chained m (blockCount m) s)
    (hfin : s.status.fin = true) (hrec : s.status.rv = true → s.rblk = messageBlock m s.icur ∧
      s.rcnt = if s.icur + 1 = s.nblk then m.length % Config.blockBytes else Config.blockBytes) : Follows m s where
  buffered hfin' := by rw [hfin] at hfin'; cases hfin'
  source := by rw [blocksDone_finalized hfin]; exact h.source
  counted := by rw [blocksDone_finalized hfin]; exact ⟨h.nblk, h.lovf⟩
  logged := h.logged
  recovered := hrec

/-- The waiting bytes before FINALIZE are the last bytes of its message. -/
theorem Follows.lastBytes_buffered {m : List Byte} {s : State} (h : Follows m s) (hfin : s.status.fin = false) :
    s.buflen = m.length % Config.blockBytes ∧ Buffered s (lastBytes m) := by
  obtain ⟨hlen, hread⟩ := h.buffered hfin
  refine ⟨hlen, fun j hj => ?_⟩
  rw [length_lastBytes, ← hlen] at hj
  rw [hread j hj, getElem?_lastBytes, ← hlen]

/-! ### The registers under each update (R24 items 1, 2, 4 to 8) -/

section RegularSteps
variable {s : State} (h : Regular s)
include h

theorem Regular.memoryCanonical : s.MemoryCanonical := ⟨h.bufWf.1, h.bufWf.2, h.logWf.1, h.logWf.2⟩

theorem Regular.consume : Regular s.consume := { h with }

/-- An error other than PAD_ERR keeps the registers regular (60_exceptions.md R156). -/
theorem Regular.raiseErr {c : ErrCode} (hc : c ≠ .padErr) : Regular (s.raiseErr c) := by
  by_cases herr : s.status.err = true
  · rw [State.raiseErr, if_pos herr]
    exact h
  · rw [State.raiseErr, if_neg herr]
    exact { h with err := by cases c <;> simp [ErrCode.code], errcode := by cases c <;> simp_all [ErrCode.code] }

theorem Regular.gateAt (g : Gate) : Regular (s.gateAt g) := { h with }

theorem Regular.not_armed (hfin : s.status.fin = false) : s.status.ia = false ∧ s.status.rv = false := by
  have hia : s.status.ia = false := by
    by_contra hne
    have := (h.ia (by simpa using hne)).1
    simp [hfin] at this
  refine ⟨hia, ?_⟩
  by_contra hne
  have := (h.rv (by simpa using hne)).1
  simp [hia] at this

/-- A byte stored in BUF, the live bytes going on as far as it reaches. -/
theorem Regular.bufWrite {a n : Nat} (ha : a < 32) (v : Byte) (hn : n ≤ 31) (hfin : s.status.fin = false)
    (hlive : n ≤ s.buflen ∨ (a = s.buflen ∧ n = s.buflen + 1)) :
    Regular { s with buf := Memory.write s.buf a v, buflen := n } :=
  { h with
    buflen := hn
    fin := by simp [hfin]
    bufLive := fun j hj => by
      rw [Memory.read_write]
      split
      · rfl
      · exact h.bufLive j (by simp only at hj; omega)
    bufWf := ⟨Memory.wf_write _ _ _ h.bufWf.1, Memory.below_write _ _ ha h.bufWf.2⟩ }

theorem Regular.blockStep (hfin : s.status.fin = false) (fin : Bool) (b : Block) : Regular (s.blockStep fin b) := by
  have hmem := (s.blockStep_keepsMemory fin b).canonical h.memoryCanonical
  have hnblk := h.nblk
  have hicur := h.icur
  have hdepth := h.depth
  obtain ⟨hia, hrv⟩ := h.not_armed hfin
  exact {
    idle := s.blockStep_pass fin b
    depth := by rw [State.blockStep_logDepth]; exact h.depth
    layerRange := by rw [State.blockStep_l]; exact deadLayer_range s.free
    buflen := by simp
    nblk := by rw [State.blockStep_nblk, State.blockStep_logDepth]; split <;> omega
    icur := by rw [State.blockStep_nblk, State.blockStep_icur]; split <;> omega
    rcnt := by rw [State.blockStep_rcnt]; exact h.rcnt
    fin := fun _ => ⟨by rw [State.blockStep_nblk]; split <;> omega, s.blockStep_buflen fin b⟩
    ia := by simp [State.blockStep_status, hia]
    rv := by simp [State.blockStep_status, hrv]
    err := by rw [State.blockStep_status]; exact h.err
    errcode := by rw [State.blockStep_status]; exact h.errcode
    bufLive := by simp
    logLive := fun i hi => by
      rw [State.blockStep_nblk] at hi
      rw [State.blockStep_log]
      split at hi
      · next hroom =>
        rw [if_pos hroom, Memory.read_write]
        split
        · rfl
        · exact h.logLive i (by omega)
      · next hroom =>
        rw [if_neg hroom]
        exact h.logLive i hi
    bufWf := ⟨hmem.bufWf, hmem.bufBelow⟩
    logWf := ⟨hmem.logWf, hmem.logBelow⟩ }

/-- INV_BEGIN after FINALIZE, the chain being whole (44_inverse.md R141). -/
theorem Regular.armed (hfin : s.status.fin = true) (hlovf : s.status.lovf = false) :
    Regular { s with icur := s.nblk, status := s.status.armed } :=
  { h with
    icur := Nat.le_refl s.nblk
    ia := fun _ => ⟨hfin, hlovf⟩
    rv := by simp }

/-- A block recovered by INV_STEP (R142). -/
theorem Regular.recovered (hia : s.status.ia = true) (hicur : s.icur ≠ 0) (r : Block) {cnt : Nat} (hcnt : cnt ≤ 32) :
    Regular { s.endPass with rblk := r, rcnt := cnt, icur := s.icur - 1, status := s.status.recovered } :=
  { h with
    idle := rfl
    layerRange := deadLayer_range s.free
    icur := (Nat.sub_le _ _).trans h.icur
    rcnt := hcnt
    rv := fun _ => ⟨hia, by have := h.icur; simp only [State.endPass_nblk]; omega⟩ }

end RegularSteps

end Sys2Proof.Safety
end

section
namespace Sys2Proof.Machine
open Sys2Proof.Safety

/-! ### What each command answers, by its guards -/

section Commands
variable {s : State}

theorem exec_update_of_finalized (hfin : s.status.fin = true) (b : Byte) :
    exec (.update b) s = .next (s.raiseErr .stateErr) := by
  simp [exec, execUpdate, hfin]

/-- UPDATE below the 32nd byte (43_chunk_pipeline.md R121). -/
theorem exec_update_of_room (hfin : s.status.fin = false) (hlen : s.buflen < 31) (b : Byte) :
    exec (.update b) s = .next { s with buf := Memory.write s.buf s.buflen b, buflen := s.buflen + 1 } := by
  have hw := (s.bufWrite_ok_iff _ s.buflen b).mpr ⟨Nat.lt_succ_of_lt hlen, rfl⟩
  have hne : s.buflen ≠ 31 := by omega
  simp [exec, execUpdate, hfin, hw, hne, Config.blockBytes]

theorem exec_finalize_of_finalized (hfin : s.status.fin = true) :
    exec .finalize s = .next (s.raiseErr .stateErr) := by
  simp [exec, execFinalize, hfin]

theorem exec_invBegin_of_open (hfin : s.status.fin = false) :
    exec .invBegin s = .next (s.raiseErr .stateErr) := by
  simp [exec, execInvBegin, hfin]

theorem exec_invBegin_of_overflow (hfin : s.status.fin = true) (hlovf : s.status.lovf = true) :
    exec .invBegin s = .next (s.raiseErr .logUnavail) := by
  simp [exec, execInvBegin, hfin, hlovf]

theorem exec_invBegin_of_chain (hfin : s.status.fin = true) (hlovf : s.status.lovf = false) :
    exec .invBegin s = .next { s with icur := s.nblk, status := s.status.armed } := by
  simp [exec, execInvBegin, hfin, hlovf]

theorem exec_invStep_of_exhausted (h : s.status.ia = false ∨ s.icur = 0) :
    exec .invStep s = .next (s.raiseErr .stateErr) := by
  simp [exec, execInvStep, h]

/-- INV_STEP of the last block when it is no padding (44_inverse.md R142). -/
theorem exec_invStep_of_no_padding {v ei : Block} (hia : s.status.ia = true) (hpos : s.icur ≠ 0)
    (hv : s.inverseInput = .ok v) (hei : s.inverseSource = .ok ei) (hcnt : s.recoveredCount (INVNET v ei) = none) :
    exec .invStep s = .next (s.endPass.raiseErr .padErr) := by
  rw [exec_invStep_of_reads hia hpos hv hei, State.inverseStep_eq, hcnt]

/-- INV_STEP of a block that is recovered (R142). -/
theorem exec_invStep_of_count {v ei : Block} {cnt : Nat} (hia : s.status.ia = true) (hpos : s.icur ≠ 0)
    (hv : s.inverseInput = .ok v) (hei : s.inverseSource = .ok ei) (hcnt : s.recoveredCount (INVNET v ei) = some cnt) :
    exec .invStep s = .next
      { s.endPass with rblk := INVNET v ei, rcnt := cnt, icur := s.icur - 1, status := s.status.recovered } := by
  rw [exec_invStep_of_reads hia hpos hv hei, State.inverseStep_eq, hcnt]

end Commands

/-! ### The waiting bytes as a message grows -/

theorem lastBytes_append_singleton {m : List Byte} (b : Byte) (hm : m.length % Config.blockBytes < 31) :
    lastBytes (m ++ [b]) = lastBytes m ++ [b] := by
  have hdiv : (m ++ [b]).length / Config.blockBytes = m.length / Config.blockBytes := by
    rw [List.length_append, List.length_singleton]
    simp only [Config.blockBytes] at hm ⊢
    omega
  rw [lastBytes, hdiv, List.drop_append_of_le_length (Nat.mul_div_le _ _), lastBytes]

end Sys2Proof.Machine

namespace Sys2Proof.Safety
open Sys2Proof.Machine

/-! ### The message under each update (43_chunk_pipeline.md R119; 44_inverse.md R143) -/

/-- A byte stored behind the buffered ones is buffered too. -/
theorem Buffered.write {s : State} {r : List Byte} (h : Buffered s r) (b : Byte) (n : Nat) :
    Buffered { s with buf := Memory.write s.buf r.length b, buflen := n } (r ++ [b]) := by
  intro j hj
  rw [Memory.read_write]
  split
  · next heq => simp [heq]
  · next hne =>
    have hlt : j < r.length := by rw [List.length_append, List.length_singleton] at hj; omega
    rw [List.getElem?_append_left hlt]
    exact h j hlt

theorem Follows.raiseErr {m : List Byte} {s : State} (h : Follows m s) (c : ErrCode) : Follows m (s.raiseErr c) := by
  unfold State.raiseErr
  split
  · exact h
  · exact { h with }

theorem Follows.gateAt {m : List Byte} {s : State} (h : Follows m s) (g : Gate) : Follows m (s.gateAt g) := { h with }

theorem Follows.consume {m : List Byte} {s : State} (h : Follows m s) : Follows m s.consume := { h with }

/-- With LOVF = 0 the blocks done are those its log holds (10_state.md R17). -/
theorem Follows.nblk_of_not_overflowed {m : List Byte} {s : State} (h : Follows m s) (hlovf : s.status.lovf = false) :
    s.nblk = blocksDone m s := by
  obtain ⟨hnblk, hover⟩ := h.counted
  rw [hlovf, eq_comm, decide_eq_false_iff_not] at hover
  omega

/-- A byte that completes no block joins the waiting ones. -/
theorem Follows.bufWrite {m : List Byte} {s : State} (h : Follows m s) (hr : Regular s) (hfin : s.status.fin = false)
    (hlen : s.buflen < 31) (b : Byte) :
    Follows (m ++ [b]) { s with buf := Memory.write s.buf s.buflen b, buflen := s.buflen + 1 } := by
  obtain ⟨hcount, hbuf⟩ := h.lastBytes_buffered hfin
  have hsame : (m ++ [b]).length / Config.blockBytes = m.length / Config.blockBytes := by
    rw [List.length_append, List.length_singleton]
    simp only [Config.blockBytes] at hcount ⊢
    omega
  have hchain := h.chained
  rw [blocksDone_open hfin] at hchain
  refine Chained.follows_open (hsame ▸ { hchain.append [b] (Nat.le_refl _) with }) hfin (hr.not_armed hfin).2 ?_ ?_
  · rw [List.length_append, List.length_singleton]
    simp only [Config.blockBytes] at hcount ⊢
    omega
  · rw [lastBytes_append_singleton b (hcount ▸ hlen)]
    have hwrite := hbuf.write b (s.buflen + 1)
    rwa [length_lastBytes, ← hcount] at hwrite

/-- The byte that completes a block is hashed with the 31 waiting ones. -/
theorem Follows.completeBlock {m : List Byte} {s : State} (h : Follows m s) (hr : Regular s) (hfin : s.status.fin = false)
    (hlen : s.buflen = 31) (b : Byte) :
    Follows (m ++ [b])
      (({ s with buf := Memory.write s.buf 31 b } : State).blockStep false (blockOfBytes (lastBytes m ++ [b]))) := by
  have hcount : m.length % Config.blockBytes = 31 := (h.lastBytes_buffered hfin).1 ▸ hlen
  have hnext : (m ++ [b]).length / Config.blockBytes = m.length / Config.blockBytes + 1 ∧
      (m ++ [b]).length % Config.blockBytes = 0 := by
    rw [List.length_append, List.length_singleton]
    simp only [Config.blockBytes] at hcount ⊢
    omega
  have hchain := h.chained
  rw [blocksDone_open hfin] at hchain
  have hwritten : Chained (m ++ [b]) (m.length / Config.blockBytes) { s with buf := Memory.write s.buf 31 b } :=
    { hchain.append [b] (Nat.le_refl _) with }
  rw [← messageBlock_completed b hcount]
  refine Chained.follows_open (hnext.1 ▸ hwritten.blockStep false) ?_ ?_ ?_ fun j hj => ?_
  · simp [State.blockStep_status, hfin]
  · simp [State.blockStep_status, (hr.not_armed hfin).2]
  · rw [State.blockStep_buflen, hnext.2]
  · rw [length_lastBytes, hnext.2] at hj
    cases hj

/-- FINALIZE hashes the padding of the waiting bytes (R122). -/
theorem Follows.finalize {m : List Byte} {s : State} (h : Follows m s) (hr : Regular s) (hfin : s.status.fin = false) :
    Follows m (s.blockStep true (blockOfBytes (padBlk (lastBytes m)))) := by
  have hchain := h.chained
  rw [blocksDone_open hfin] at hchain
  rw [← messageBlock_last]
  refine (hchain.blockStep true).follows_finalized ?_ ?_
  · simp [State.blockStep_status]
  · simp [State.blockStep_status, (hr.not_armed hfin).2]

theorem Follows.armed {m : List Byte} {s : State} (h : Follows m s) :
    Follows m { s with icur := s.nblk, status := s.status.armed } :=
  { h with recovered := by simp }

/-- Undoing a block of the chain (44_inverse.md R139). -/
theorem INVNET_chainAt (m : List Byte) (i : Nat) : INVNET (chainAt m (i + 1)) (chainAt m i) = messageBlock m i :=
  INVNET_NET _ _

section Armed
variable {m : List Byte} {s : State} (h : Follows m s) (hr : Regular s) (hia : s.status.ia = true) (hpos : s.icur ≠ 0)
include h hr hia hpos

/-- What INV_STEP reads on the armed path: two neighbours of the chain (R142). -/
theorem Follows.inverse_reads :
    s.inverseInput = .ok (chainAt m s.icur) ∧ s.inverseSource = .ok (chainAt m (s.icur - 1)) := by
  have hicur := hr.icur
  have hdepth := hr.nblk
  have hdone := h.nblk_of_not_overflowed (hr.ia hia).2
  rw [State.inverseInput_ok_iff, State.inverseSource_ok_iff]
  refine ⟨?_, hpos, by omega, h.logged _ (by omega)⟩
  rcases Nat.eq_or_lt_of_le hicur with heq | hlt
  · exact Or.inl ⟨heq, by rw [h.source, heq, hdone]⟩
  · exact Or.inr ⟨hlt, by omega, h.logged _ hlt⟩

/-- The count INV_STEP finds: padding never fails on a block of the message (R143). -/
theorem Follows.recoveredCount_eq : s.recoveredCount (messageBlock m (s.icur - 1)) =
    some (if s.icur = s.nblk then m.length % Config.blockBytes else Config.blockBytes) := by
  have hdone := h.nblk_of_not_overflowed (hr.ia hia).2
  rw [blocksDone_finalized (hr.ia hia).1, blockCount] at hdone
  unfold State.recoveredCount
  split
  · next heq =>
    rw [show s.icur - 1 = m.length / Config.blockBytes by omega]
    exact unpad_messageBlock_last m
  · rfl

/-- INV_STEP on the armed path shows the next block of the message. -/
theorem Follows.exec_invStep : exec .invStep s = .next
    { s.endPass with
      rblk := messageBlock m (s.icur - 1)
      rcnt := if s.icur = s.nblk then m.length % Config.blockBytes else Config.blockBytes
      icur := s.icur - 1
      status := s.status.recovered } := by
  obtain ⟨hv, hei⟩ := h.inverse_reads hr hia hpos
  have hblock : INVNET (chainAt m s.icur) (chainAt m (s.icur - 1)) = messageBlock m (s.icur - 1) := by
    conv_lhs => rw [show s.icur = s.icur - 1 + 1 by omega, Nat.add_sub_cancel]
    exact INVNET_chainAt m _
  rw [exec_invStep_of_count hia hpos hv hei (hblock ▸ h.recoveredCount_eq hr hia hpos), hblock]

end Armed

theorem Follows.recovered_block {m : List Byte} {s : State} (h : Follows m s) (hpos : s.icur ≠ 0) : Follows m
    { s.endPass with
      rblk := messageBlock m (s.icur - 1)
      rcnt := if s.icur = s.nblk then m.length % Config.blockBytes else Config.blockBytes
      icur := s.icur - 1
      status := s.status.recovered } :=
  { h with
    recovered := fun _ => ⟨rfl, by simp only [State.endPass_nblk, Nat.sub_add_cancel (Nat.pos_of_ne_zero hpos)]⟩ }

/-! ### The invariant under each instruction -/

/-- The instruction answers a next state that has the invariant. -/
def Safe (i : Instr) (s : State) : Prop := ∃ t, exec i s = .next t ∧ Inv t

section InvSteps
variable {s : State} (h : Inv s)
include h

theorem Inv.raiseErr {c : ErrCode} (hc : c ≠ .padErr) : Inv (s.raiseErr c) := by
  obtain ⟨hr, m, hm⟩ := h
  exact ⟨hr.raiseErr hc, m, hm.raiseErr c⟩

theorem Inv.consume : Inv s.consume := by
  obtain ⟨hr, m, hm⟩ := h
  exact ⟨hr.consume, m, hm.consume⟩

theorem Inv.toReset : Inv s.toReset :=
  (atReset_toReset s).inv h.1.depth (deadLayer_range s.free)

theorem Inv.gate_safe (g : Gate) : Safe g.instr s := by
  obtain ⟨hr, m, hm⟩ := h
  exact ⟨_, exec_gate_instr g s, hr.gateAt g, m, hm.gateAt g⟩

theorem Inv.update_safe (b : Byte) : Safe (.update b) s := by
  have ⟨hr, m, hm⟩ := h
  cases hfin : s.status.fin with
  | true => exact ⟨_, exec_update_of_finalized hfin b, h.raiseErr (by decide)⟩
  | false =>
    rcases Nat.lt_or_eq_of_le hr.buflen with hlen | hlen
    · exact ⟨_, exec_update_of_room hfin hlen b,
        hr.bufWrite (Nat.lt_succ_of_lt hlen) b hlen hfin (Or.inr ⟨rfl, rfl⟩), m ++ [b], hm.bufWrite hr hfin hlen b⟩
    · obtain ⟨hcount, hbuf⟩ := hm.lastBytes_buffered hfin
      refine ⟨_, exec_update_of_full hfin hlen (by rw [length_lastBytes, ← hcount, hlen]) hbuf b, ?_⟩
      rw [State.blockStep_of_buflen false _ { s with buf := Memory.write s.buf 31 b } 32]
      exact ⟨(hr.bufWrite (a := 31) (by decide) b hr.buflen hfin (Or.inl (Nat.le_refl _))).blockStep hfin _ _,
        m ++ [b], hm.completeBlock hr hfin hlen b⟩

theorem Inv.finalize_safe : Safe .finalize s := by
  have ⟨hr, m, hm⟩ := h
  cases hfin : s.status.fin with
  | true => exact ⟨_, exec_finalize_of_finalized hfin, h.raiseErr (by decide)⟩
  | false =>
    obtain ⟨hcount, hbuf⟩ := hm.lastBytes_buffered hfin
    exact ⟨_, exec_finalize_of_buffered hfin hr.buflen (by rw [length_lastBytes, hcount]) hbuf,
      hr.blockStep hfin _ _, m, hm.finalize hr hfin⟩

theorem Inv.invBegin_safe : Safe .invBegin s := by
  have ⟨hr, m, hm⟩ := h
  cases hfin : s.status.fin with
  | false => exact ⟨_, exec_invBegin_of_open hfin, h.raiseErr (by decide)⟩
  | true =>
    cases hlovf : s.status.lovf with
    | true => exact ⟨_, exec_invBegin_of_overflow hfin hlovf, h.raiseErr (by decide)⟩
    | false => exact ⟨_, exec_invBegin_of_chain hfin hlovf, hr.armed hfin hlovf, m, hm.armed⟩

theorem Inv.invStep_safe : Safe .invStep s := by
  have ⟨hr, m, hm⟩ := h
  by_cases hend : s.status.ia = false ∨ s.icur = 0
  · exact ⟨_, exec_invStep_of_exhausted hend, h.raiseErr (by decide)⟩
  · obtain ⟨hia, hpos⟩ : s.status.ia = true ∧ s.icur ≠ 0 := by simpa using hend
    refine ⟨_, hm.exec_invStep hr hia hpos, hr.recovered hia hpos _ ?_, m, hm.recovered_block hpos⟩
    have hlt := Nat.mod_lt m.length (show 0 < Config.blockBytes by decide)
    split
    · exact hlt.le
    · exact Nat.le_refl 32

theorem Inv.exec_safe (i : Instr) : Safe i s := by
  cases i with
  | tof => exact h.gate_safe .tof
  | mtof => exact h.gate_safe .mtof
  | fre => exact h.gate_safe .fre
  | mfre => exact h.gate_safe .mfre
  | nop => exact ⟨s, rfl, h⟩
  | reset => exact ⟨_, rfl, h.toReset⟩
  | update b => exact h.update_safe b
  | finalize => exact h.finalize_safe
  | invBegin => exact h.invBegin_safe
  | invStep => exact h.invStep_safe

end InvSteps

/-- An idle machine waits, is reset, takes a command, or finds a word illegal (70_reset_and_hazards.md R170, R176). -/
theorem fetch_idle_cases {s : State} (hp : s.pass = .idle) :
    s.fetch = .wait ∨ s.fetch = .reset ∨ (∃ i, s.fetch = .command i) ∨ ∃ why, s.fetch = .illegal why := by
  unfold State.fetch
  rw [hp]
  match s.input with
  | [] => exact Or.inl rfl
  | .rst :: rest => exact Or.inr (Or.inl rfl)
  | .cmd w :: rest =>
    refine Or.inr (Or.inr ?_)
    simp only [fetchWord]
    cases decodeCmd w with
    | instr i => exact Or.inl ⟨i, rfl⟩
    | illegal why => exact Or.inr ⟨why, rfl⟩

/-- Settles O46: at a command boundary a step is an instruction or an error entry on the state with the host's action taken, and each
keeps both halves of the invariant: the registers, and the message they carry. -/
theorem stepKeepsInvariant : Obligations.StepKeepsInvariant := by
  intro s h
  unfold step
  obtain hf | hf | ⟨i, hf⟩ | ⟨why, hf⟩ := fetch_idle_cases h.1.idle <;> rw [hf]
  · exact ⟨s, rfl, h⟩
  · exact ⟨_, rfl, h.consume.toReset⟩
  · exact h.consume.exec_safe i
  · exact ⟨_, rfl, h.consume.raiseErr (by decide)⟩

end Sys2Proof.Safety
end

section
namespace Sys2Proof.Safety
open Sys2Proof.Machine

/-! ### The values after reset -/

/-- Settles O45: the reset values, with the layer counter at 1 and any depth of at least one entry. -/
theorem invariantHoldsAtReset : Obligations.InvariantHoldsAtReset := by
  have hinv : ∀ d, 1 ≤ d → Inv (State.resetWith d) := fun d hd =>
    (atReset_resetWith d).inv hd ⟨Nat.le_refl 1, show 1 ≤ Config.nLayers by decide⟩
  exact ⟨hinv Config.logDepth (Nat.le_add_left 1 _), hinv⟩

/-- Settles O28: the reset values, and the ports as views of them. -/
theorem resetStateValues : Obligations.ResetStateValues :=
  ⟨atReset_resetWith Config.logDepth, rfl, rfl, by decide, rfl, Nat.le_add_left 1 _⟩

/-- Settles O41: the reset pin is fetched before the sequencer's state is looked at. -/
theorem resetPinTakesEffectAnywhere : Obligations.ResetPinTakesEffectAnywhere := by
  intro s rest hin
  have hf : s.fetch = .reset := by
    unfold State.fetch
    rw [hin]
  refine ⟨s.consume.toReset, by rw [step, hf], atReset_toReset _, rfl, ?_⟩
  rw [State.toReset_input, State.consume_input, hin, List.tail_cons]

/-- Settles O42: with nothing listed an idle machine fetches nothing. -/
theorem idleMachineWaits : Obligations.IdleMachineWaits := by
  intro s hp hin
  have hf : s.fetch = .wait := by
    unfold State.fetch
    rw [hin, hp]
  rw [step, hf]

/-! ### The ports -/

/-- Settles O59, the eight bits of STATUS being the concatenation of its fields. -/
theorem statusWordLayout : Obligations.StatusWordLayout := by
  intro s
  have hlayout : ∀ t : Status, t.word.getLsbD 0 = t.fin ∧ t.word.getLsbD 1 = t.ia ∧ t.word.getLsbD 2 = t.rv ∧
      t.word.getLsbD 3 = t.lovf ∧ t.word.getLsbD 4 = t.err ∧ t.word.extractLsb' 5 3 = t.errcode := by
    rintro ⟨fin, ia, rv, lovf, err, errcode⟩
    revert fin ia rv lovf err errcode
    decide
  obtain ⟨hfin, hia, hrv, hlovf, herr, hcode⟩ := hlayout s.status
  exact ⟨hfin, hia, hrv, hlovf, herr, hcode, herr.symm, hfin.symm⟩

/-- Settles O60: a number of at most LOGDEPTH fits the width, and the highest bit of LOGDEPTH needs all of it. -/
theorem portsShowCounters : Obligations.PortsShowCounters := by
  intro s h
  have hbuflen := h.buflen
  have hrcnt := h.rcnt
  have hnblk := h.nblk
  have hicur := h.icur
  have hwidth : s.logDepth < 2 ^ s.counterWidth := Nat.lt_log2_self
  refine ⟨?_, ?_, ?_, ?_, hwidth, ?_⟩
  · exact Nat.mod_eq_of_lt (show s.buflen < 2 ^ 6 by omega)
  · exact Nat.mod_eq_of_lt (show s.rcnt < 2 ^ 6 by omega)
  · exact Nat.mod_eq_of_lt (show s.nblk < 2 ^ s.counterWidth by omega)
  · exact Nat.mod_eq_of_lt (show s.icur < 2 ^ s.counterWidth by omega)
  · exact Nat.log2_self_le (Nat.ne_of_gt h.depth)

end Sys2Proof.Safety

namespace Sys2Proof.Machine

/-! ### Lanes and their bytes (10_state.md R11; 20_memory.md R46) -/

/-- A bit of byte k of lane n is a bit of the lane, byte 0 the most significant. -/
theorem getLsbD_byteOf_lane (v : Block) {n k i : Nat} (hn : n < 8) (hk : k < 4) (hi : i < 8) :
    (byteOf v (4 * n + k)).getLsbD i = (laneOf 32 v n).getLsbD (24 - 8 * k + i) := by
  rw [getLsbD_byteOf v _ i hi, getLsbD_laneOf v n _ (by omega)]
  exact congrArg v.getLsbD (by omega)

theorem laneOf_eq_bytes (v : Block) {n : Nat} (hn : n < 8) : laneOf 32 v n =
    byteOf v (4 * n) ++ byteOf v (4 * n + 1) ++ byteOf v (4 * n + 2) ++ byteOf v (4 * n + 3) := by
  apply BitVec.eq_of_getLsbD_eq
  intro i hi
  simp only [BitVec.getLsbD_append]
  split
  · next h0 => rw [getLsbD_byteOf_lane v hn (by decide) h0]; simp
  split
  · next h1 => rw [getLsbD_byteOf_lane v hn (by decide) h1]; exact congrArg _ (by omega)
  split
  · next h2 => rw [getLsbD_byteOf_lane v hn (by decide) h2]; exact congrArg _ (by omega)
  · rw [← Nat.add_zero (4 * n), getLsbD_byteOf_lane v hn (by decide) (by omega)]; exact congrArg _ (by omega)

/-- Settles O21, bit by bit. -/
theorem lanesAndBlocksCorrespond : Obligations.LanesAndBlocksCorrespond :=
  ⟨joinBlock_splitBlock, splitBlock_joinBlock, fun v n hn => (splitBlock_getElem v n hn).trans (laneOf_eq_bytes v hn)⟩

end Sys2Proof.Machine
end

section
namespace Sys2Proof.Machine
open Sys2Proof.Safety

/-! ### What an instruction does, case by case, and when -/

/-- What an instruction can do to a state from which it answers a next one, with its guard: the one relation the frame and the
noninterference statements go through (`exec_next_iff`). -/
inductive Effect (s : State) : Instr → State → Prop
  | gate (g : Gate) : Effect s g.instr (s.gateAt g)
  | nop : Effect s .nop s
  | reset : Effect s .reset s.toReset
  | updateRefused (b : Byte) (hfin : s.status.fin = true) : Effect s (.update b) (s.raiseErr .stateErr)
  | updateAppends (b : Byte) (hfin : s.status.fin = false) (hlen : s.buflen < 31) :
      Effect s (.update b) { s with buf := Memory.write s.buf s.buflen b, buflen := s.buflen + 1 }
  | updateCompletes (b : Byte) (bs : List Byte) (hfin : s.status.fin = false) (hlen : s.buflen = 31)
      (hbs : bs.length = s.buflen) (hbuf : Buffered s bs) :
      Effect s (.update b)
        (({ s with buf := Memory.write s.buf 31 b } : State).blockStep false (blockOfBytes (bs ++ [b])))
  | finalizeRefused (hfin : s.status.fin = true) : Effect s .finalize (s.raiseErr .stateErr)
  | finalizeHashes (r : List Byte) (hfin : s.status.fin = false) (hlen : s.buflen ≤ 31) (hr : r.length = s.buflen)
      (hbuf : Buffered s r) : Effect s .finalize (s.blockStep true (blockOfBytes (padBlk r)))
  | invBeginRefused (hfin : s.status.fin = false) : Effect s .invBegin (s.raiseErr .stateErr)
  | invBeginOverflow (hfin : s.status.fin = true) (hlovf : s.status.lovf = true) :
      Effect s .invBegin (s.raiseErr .logUnavail)
  | invBeginArms (hfin : s.status.fin = true) (hlovf : s.status.lovf = false) :
      Effect s .invBegin { s with icur := s.nblk, status := s.status.armed }
  | invStepRefused (hend : s.status.ia = false ∨ s.icur = 0) : Effect s .invStep (s.raiseErr .stateErr)
  | invStepNoPadding (v ei : Block) (hia : s.status.ia = true) (hpos : s.icur ≠ 0) (hv : s.inverseInput = .ok v)
      (hei : s.inverseSource = .ok ei) (hcnt : s.recoveredCount (INVNET v ei) = none) :
      Effect s .invStep (s.endPass.raiseErr .padErr)
  | invStepRecovers (v ei : Block) (cnt : Nat) (hia : s.status.ia = true) (hpos : s.icur ≠ 0)
      (hv : s.inverseInput = .ok v) (hei : s.inverseSource = .ok ei)
      (hcnt : s.recoveredCount (INVNET v ei) = some cnt) :
      Effect s .invStep
        { s.endPass with rblk := INVNET v ei, rcnt := cnt, icur := s.icur - 1, status := s.status.recovered }

theorem Effect.exec_next {i : Instr} {s t : State} (h : Effect s i t) : exec i s = .next t := by
  cases h with
  | gate g => exact exec_gate_instr g s
  | nop => rfl
  | reset => rfl
  | updateRefused b hfin => exact exec_update_of_finalized hfin b
  | updateAppends b hfin hlen => exact exec_update_of_room hfin hlen b
  | updateCompletes b bs hfin hlen hbs hbuf =>
    rw [exec_update_of_full hfin hlen (hbs.trans hlen) hbuf b]
    exact congrArg _ (State.blockStep_of_buflen false _ { s with buf := Memory.write s.buf 31 b } 32)
  | finalizeRefused hfin => exact exec_finalize_of_finalized hfin
  | finalizeHashes r hfin hlen hr hbuf => exact exec_finalize_of_buffered hfin hlen hr hbuf
  | invBeginRefused hfin => exact exec_invBegin_of_open hfin
  | invBeginOverflow hfin hlovf => exact exec_invBegin_of_overflow hfin hlovf
  | invBeginArms hfin hlovf => exact exec_invBegin_of_chain hfin hlovf
  | invStepRefused hend => exact exec_invStep_of_exhausted hend
  | invStepNoPadding v ei hia hpos hv hei hcnt => exact exec_invStep_of_no_padding hia hpos hv hei hcnt
  | invStepRecovers v ei cnt hia hpos hv hei hcnt => exact exec_invStep_of_count hia hpos hv hei hcnt

/-- The 32 bytes UPDATE reads back are the 31 waiting ones and the byte stored. -/
theorem buffered_of_reads {s : State} {b : Byte} {bs : List Byte} (hbs : bs.length = 32)
    (hread : ∀ j, j < 32 → Memory.read (Memory.write s.buf 31 b) j = bs[j]?) :
    Buffered s (bs.take 31) ∧ bs = bs.take 31 ++ [b] := by
  constructor
  · intro j hj
    have hlt : j < 31 := by rw [List.length_take] at hj; omega
    rw [List.getElem?_take_of_lt hlt, ← hread j (by omega), Memory.read_write_ne _ _ (by omega)]
  · have hlast : bs[31]? = some b := by rw [← hread 31 (by decide), Memory.read_write_same]
    have hdrop : bs.drop 31 = [b] := by
      obtain ⟨h31, hb⟩ := List.getElem?_eq_some_iff.mp hlast
      rw [List.drop_eq_getElem_cons h31, hb, List.drop_eq_nil_of_le (by omega)]
    rw [← hdrop, List.take_append_drop]

theorem Effect.of_update {b : Byte} {s t : State} (h : execUpdate b s = .next t) : Effect s (.update b) t := by
  obtain ⟨hfin, rfl⟩ | ⟨hfin, hlen, rfl⟩ | ⟨hfin, hlen, bs, hbs, hread, rfl⟩ := execUpdate_next_cases h
  · exact .updateRefused b hfin
  · exact .updateAppends b hfin hlen
  · obtain ⟨hbuf, heq⟩ := buffered_of_reads hbs hread
    rw [State.blockStep_of_buflen false _ { s with buf := Memory.write s.buf 31 b } 32, heq]
    exact .updateCompletes b _ hfin hlen (by rw [List.length_take]; omega) hbuf

theorem Effect.of_finalize {s t : State} (h : execFinalize s = .next t) : Effect s .finalize t := by
  obtain ⟨hfin, rfl⟩ | ⟨hfin, hlen, r, hr, hread, rfl⟩ := execFinalize_next_cases h
  · exact .finalizeRefused hfin
  · exact .finalizeHashes r hfin hlen hr (fun j hj => hread j (hr ▸ hj))

theorem Effect.of_invBegin {s t : State} (h : execInvBegin s = .next t) : Effect s .invBegin t := by
  obtain ⟨hfin, rfl⟩ | ⟨hfin, hlovf, rfl⟩ | ⟨hfin, hlovf, rfl⟩ := execInvBegin_next_cases h
  · exact .invBeginRefused hfin
  · exact .invBeginOverflow hfin hlovf
  · exact .invBeginArms hfin hlovf

theorem Effect.of_invStep {s t : State} (h : execInvStep s = .next t) : Effect s .invStep t := by
  obtain ⟨hend, rfl⟩ | ⟨hia, hpos, v, ei, hv, hei, ⟨hcnt, rfl⟩ | ⟨cnt, hcnt, rfl⟩⟩ := execInvStep_next_cases h
  · exact .invStepRefused hend
  · exact .invStepNoPadding v ei hia hpos hv hei hcnt
  · exact .invStepRecovers v ei cnt hia hpos hv hei hcnt

theorem Effect.of_gate {g : Gate} {s t : State} (h : exec g.instr s = .next t) : Effect s g.instr t := by
  rw [exec_gate_instr] at h
  cases h
  exact .gate g

/-- An instruction answers a next state exactly by one of its effects. -/
theorem exec_next_iff {i : Instr} {s t : State} : exec i s = .next t ↔ Effect s i t := by
  refine ⟨fun h => ?_, Effect.exec_next⟩
  cases i with
  | tof => exact .of_gate (g := .tof) h
  | mtof => exact .of_gate (g := .mtof) h
  | fre => exact .of_gate (g := .fre) h
  | mfre => exact .of_gate (g := .mfre) h
  | nop => cases h; exact .nop
  | reset => cases h; exact .reset
  | update b => exact .of_update h
  | finalize => exact .of_finalize h
  | invBegin => exact .of_invBegin h
  | invStep => exact .of_invStep h

end Sys2Proof.Machine
end

section
namespace Sys2Proof.Machine
open Sys2Proof.Safety

/-! ### Who writes what (10_state.md R12, R13, R15 to R22) -/

/-- An error entry changes the latch from no error to its code, or nothing (60_exceptions.md R156, R158). -/
theorem State.raiseErr_latch (c : ErrCode) (s : State) :
    ((s.raiseErr c).status.err = s.status.err ∧ (s.raiseErr c).status.errcode = s.status.errcode) ∨
    (s.status.err = false ∧ (s.raiseErr c).status.err = true ∧ (s.raiseErr c).status.errcode = c.code) := by
  cases herr : s.status.err with
  | true => exact Or.inl ⟨State.raiseErr_status_err s c, by rw [State.raiseErr_status_errcode, if_pos herr]⟩
  | false =>
    exact Or.inr ⟨rfl, State.raiseErr_status_err s c, by rw [State.raiseErr_status_errcode, herr]; rfl⟩

theorem gate_instr_ne_command (g : Gate) {i : Instr} (hi : i.hostIssued = true) : g.instr ≠ i := by
  rintro rfl
  cases g <;> cases hi

/-- The errors an instruction can raise, by their codes (R150). -/
def MayRaise (i : Instr) (code : BitVec 3) : Prop :=
  (code = 2#3 ∧ ((∃ b, i = .update b) ∨ i = .finalize ∨ i = .invBegin ∨ i = .invStep)) ∨
  (code = 3#3 ∧ i = .invBegin) ∨ (code = 4#3 ∧ i = .invStep)

theorem raiseErr_latch_cases {i : Instr} {c : ErrCode} {s u : State} (hu : u.status = s.status) (hc : MayRaise i c.code) :
    ((u.raiseErr c).status.err = s.status.err ∧ (u.raiseErr c).status.errcode = s.status.errcode) ∨
    (s.status.err = false ∧ (u.raiseErr c).status.err = true ∧ MayRaise i (u.raiseErr c).status.errcode) := by
  rw [← hu]
  obtain hsame | ⟨herr, herr', hcode⟩ := u.raiseErr_latch c
  · exact Or.inl hsame
  · exact Or.inr ⟨herr, herr', hcode ▸ hc⟩

/-! An effect of a named writer contradicts the hypotheses on `i`; every other effect leaves the field, by its field lemmas. -/

section Writers
variable {i : Instr} {s t : State} (h : Effect s i t)
include h

theorem Effect.chain_eq (hreset : i ≠ .reset) (hfinalize : i ≠ .finalize) (hupdate : ∀ b, i ≠ .update b) :
    t.e = s.e ∧ t.log = s.log ∧ t.nblk = s.nblk ∧ t.buf = s.buf ∧ t.buflen = s.buflen ∧
      t.status.lovf = s.status.lovf := by
  cases h <;> simp_all

theorem Effect.fin_eq (hreset : i ≠ .reset) (hfinalize : i ≠ .finalize) : t.status.fin = s.status.fin := by
  cases h <;> simp_all [State.blockStep_status]

theorem Effect.cursor_eq (hreset : i ≠ .reset) (hbegin : i ≠ .invBegin) (hstep : i ≠ .invStep) :
    t.icur = s.icur ∧ t.status.rv = s.status.rv := by
  cases h <;> simp_all [State.blockStep_status]

theorem Effect.ia_eq (hreset : i ≠ .reset) (hbegin : i ≠ .invBegin) : t.status.ia = s.status.ia := by
  cases h <;> simp_all [State.blockStep_status]

theorem Effect.recovered_eq (hreset : i ≠ .reset) (hstep : i ≠ .invStep) : t.rblk = s.rblk ∧ t.rcnt = s.rcnt := by
  cases h <;> simp_all

theorem Effect.flags_mono (hreset : i ≠ .reset) : (s.status.fin = true → t.status.fin = true) ∧
    (s.status.ia = true → t.status.ia = true) ∧ (s.status.lovf = true → t.status.lovf = true) := by
  cases h <;> simp_all [State.blockStep_status]

theorem Effect.rv_mono (hreset : i ≠ .reset) (hbegin : i ≠ .invBegin) (hrv : s.status.rv = true) : t.status.rv = true := by
  cases h <;> simp_all [State.blockStep_status]

theorem Effect.inputs_eq : t.logDepth = s.logDepth ∧ t.input = s.input := by
  cases h <;> simp

/-- ERR and ERRCODE stay, or an error `i` can raise is latched. -/
theorem Effect.latch_cases (hreset : i ≠ .reset) :
    (t.status.err = s.status.err ∧ t.status.errcode = s.status.errcode) ∨
    (s.status.err = false ∧ t.status.err = true ∧ MayRaise i t.status.errcode) := by
  cases h with
  | reset => exact absurd rfl hreset
  | updateRefused b => exact raiseErr_latch_cases rfl (Or.inl ⟨rfl, Or.inl ⟨b, rfl⟩⟩)
  | finalizeRefused => exact raiseErr_latch_cases rfl (Or.inl ⟨rfl, Or.inr (Or.inl rfl)⟩)
  | invBeginRefused => exact raiseErr_latch_cases rfl (Or.inl ⟨rfl, Or.inr (Or.inr (Or.inl rfl))⟩)
  | invStepRefused => exact raiseErr_latch_cases rfl (Or.inl ⟨rfl, Or.inr (Or.inr (Or.inr rfl))⟩)
  | invBeginOverflow => exact raiseErr_latch_cases rfl (Or.inr (Or.inl ⟨rfl, rfl⟩))
  | invStepNoPadding => exact raiseErr_latch_cases s.endPass_status (Or.inr (Or.inr ⟨rfl, rfl⟩))
  | updateCompletes | finalizeHashes => exact Or.inl (by rw [State.blockStep_status]; exact ⟨rfl, rfl⟩)
  | gate | nop | updateAppends | invBeginArms | invStepRecovers => exact Or.inl ⟨rfl, rfl⟩

/-- A command that neither resets nor runs a block pass leaves the position alone. -/
theorem Effect.position_eq
    (hnone : i = .nop ∨ i = .invBegin ∨ (∃ b, i = .update b ∧ (s.status.fin = true ∨ s.buflen ≠ 31)) ∨
      (i = .finalize ∧ s.status.fin = true) ∨ (i = .invStep ∧ (s.status.ia = false ∨ s.icur = 0))) :
    t.x = s.x ∧ t.l = s.l ∧ t.sub = s.sub := by
  cases h with
  | gate g => obtain e | e | ⟨b, e, -⟩ | ⟨e, -⟩ | ⟨e, -⟩ := hnone <;> exact absurd e (gate_instr_ne_command g rfl)
  | _ => simp_all

end Writers

/-- Settles O48: each clause is a case analysis of what an instruction can do. -/
theorem registersHaveOnlyTheirWriters : Obligations.RegistersHaveOnlyTheirWriters := by
  intro i s t hexec
  have h := exec_next_iff.mp hexec
  refine ⟨h.chain_eq, h.fin_eq, h.cursor_eq, h.ia_eq, h.recovered_eq, h.flags_mono, h.rv_mono, ?_, h.latch_cases, ?_,
    h.position_eq, h.inputs_eq.1, h.inputs_eq.2⟩
  · rintro rfl
    cases hexec
    exact ⟨rfl, rfl⟩
  · intro hgate
    cases h with
    | gate g => rfl
    | _ => cases hgate

/-! ### The digest once valid (10_state.md R20) -/

/-- Once FIN = 1 only RESET writes E. -/
theorem Effect.e_eq_of_finalized {i : Instr} {s t : State} (h : Effect s i t) (hfin : s.status.fin = true)
    (hreset : i ≠ .reset) : t.e = s.e := by
  cases h <;> simp_all

/-- Settles O51: DIGEST shows E while FIN = 1, and neither changes. -/
theorem digestIsImmutable : Obligations.DigestIsImmutable := by
  intro i s t hfin hreset hexec
  have h := exec_next_iff.mp hexec
  rw [State.portDigest, State.portDigest, hfin, (h.flags_mono hreset).1 hfin, h.e_eq_of_finalized hfin hreset]

end Sys2Proof.Machine
end

section
namespace Sys2Proof.Safety
open Sys2Proof.Machine

/-! ### No command reads the position (10_state.md R12, R13) -/

section Position
variable {s s' t : State} (h : SameButPosition s s')
include h

theorem SameButPosition.raiseErr (c : ErrCode) : SameButPosition (s.raiseErr c) (s'.raiseErr c) := by
  rw [← h]
  unfold State.raiseErr
  dsimp only
  split <;> rfl

theorem SameButPosition.blockStep (fin : Bool) (b : Block) :
    SameButPosition (s.blockStep fin b) (s'.blockStep fin b) := by
  rw [← h, State.blockStep_eq, State.blockStep_eq]
  rfl

theorem SameButPosition.endPass : SameButPosition s.endPass s'.endPass := by
  rw [← h]
  rfl

/-- What a command does from one position it does from every other, up to the position. -/
theorem SameButPosition.effect {i : Instr} (hi : i.hostIssued = true) (he : Effect s i t) :
    ∃ t', Effect s' i t' ∧ SameButPosition t t' := by
  obtain ⟨x, l, sub, rfl⟩ : ∃ x l sub, s' = { s with x := x, l := l, sub := sub } := ⟨_, _, _, h.symm⟩
  cases he with
  | gate g => exact absurd rfl (gate_instr_ne_command g hi)
  | nop => exact ⟨_, .nop, h⟩
  | reset => exact ⟨_, .reset, rfl⟩
  | updateRefused b hfin => exact ⟨_, .updateRefused b hfin, h.raiseErr _⟩
  | updateAppends b hfin hlen => exact ⟨_, .updateAppends b hfin hlen, rfl⟩
  | updateCompletes b bs hfin hlen hbs hbuf =>
    have hstored : SameButPosition { s with buf := Memory.write s.buf 31 b }
        { s with x := x, l := l, sub := sub, buf := Memory.write s.buf 31 b } := rfl
    exact ⟨_, .updateCompletes b bs hfin hlen hbs hbuf, hstored.blockStep _ _⟩
  | finalizeRefused hfin => exact ⟨_, .finalizeRefused hfin, h.raiseErr _⟩
  | finalizeHashes r hfin hlen hr hbuf => exact ⟨_, .finalizeHashes r hfin hlen hr hbuf, h.blockStep _ _⟩
  | invBeginRefused hfin => exact ⟨_, .invBeginRefused hfin, h.raiseErr _⟩
  | invBeginOverflow hfin hlovf => exact ⟨_, .invBeginOverflow hfin hlovf, h.raiseErr _⟩
  | invBeginArms hfin hlovf => exact ⟨_, .invBeginArms hfin hlovf, rfl⟩
  | invStepRefused hend => exact ⟨_, .invStepRefused hend, h.raiseErr _⟩
  | invStepNoPadding v ei hia hpos hv hei hcnt =>
    exact ⟨_, .invStepNoPadding v ei hia hpos hv hei hcnt, h.endPass.raiseErr _⟩
  | invStepRecovers v ei cnt hia hpos hv hei hcnt =>
    exact ⟨_, .invStepRecovers v ei cnt hia hpos hv hei hcnt, rfl⟩

end Position

/-- Settles O52: the guard of every effect of a command is on the other fields, and a block pass loads the position. -/
theorem positionIsDeadBetweenCommands : Obligations.PositionIsDeadBetweenCommands := by
  intro i s s' t hi h hexec
  obtain ⟨t', he, hsame⟩ := h.effect hi (exec_next_iff.mp hexec)
  exact ⟨t', exec_next_iff.mpr he, hsame⟩

/-! ### No command reads the dead part of a memory (R24 item 8) -/

/-- The two states agree in everything but BUF from BUFLEN up and LOG from NBLK up. -/
structure LiveAlike (s s' : State) : Prop where
  frame : s' = { s with buf := s'.buf, log := s'.log }
  buf : ∀ j, j < s.buflen → Memory.read s'.buf j = Memory.read s.buf j
  log : ∀ j, j < s.nblk → Memory.read s'.log j = Memory.read s.log j

theorem LiveAlike.refl (s : State) : LiveAlike s s := ⟨rfl, fun _ _ => rfl, fun _ _ => rfl⟩

section Live
variable {s s' t : State} (h : LiveAlike s s')
include h

theorem LiveAlike.raiseErr (c : ErrCode) : LiveAlike (s.raiseErr c) (s'.raiseErr c) where
  frame := by
    rw [State.raiseErr_buf, State.raiseErr_log]
    conv_lhs => rw [h.frame]
    unfold State.raiseErr
    dsimp only
    split <;> rfl
  buf := by simpa using h.buf
  log := by simpa using h.log

/-- A byte stored in both, the live bytes going on as far as it reaches. -/
theorem LiveAlike.bufWrite {a n : Nat} (v : Byte) (hlive : n ≤ s.buflen ∨ (a = s.buflen ∧ n = s.buflen + 1)) :
    LiveAlike { s with buf := Memory.write s.buf a v, buflen := n } { s' with buf := Memory.write s'.buf a v, buflen := n } where
  frame := by conv_lhs => rw [h.frame]
  buf j hj := by
    simp only [Memory.read_write] at hj ⊢
    split
    · rfl
    · exact h.buf j (by omega)
  log := h.log

theorem LiveAlike.blockStep (fin : Bool) (b : Block) : LiveAlike (s.blockStep fin b) (s'.blockStep fin b) := by
  obtain ⟨buf, log, rfl⟩ : ∃ buf log, s' = { s with buf := buf, log := log } := ⟨_, _, h.frame⟩
  refine ⟨by rw [State.blockStep_eq, State.blockStep_eq]; rfl, by simp, fun j hj => ?_⟩
  simp only [State.blockStep_log, State.blockStep_nblk] at hj ⊢
  split
  · next hroom =>
    rw [if_pos hroom] at hj
    rw [Memory.read_write, Memory.read_write]
    split
    · rfl
    · exact h.log j (by omega)
  · next hroom =>
    rw [if_neg hroom] at hj
    exact h.log j hj

theorem LiveAlike.endPass : LiveAlike s.endPass s'.endPass := ⟨congrArg State.endPass h.frame, h.buf, h.log⟩

theorem LiveAlike.buffered {r : List Byte} (hr : r.length = s.buflen) (hbuf : Buffered s r) : Buffered s' r :=
  fun j hj => (h.buf j (hr ▸ hj)).trans (hbuf j hj)

/-- INV_STEP reads LOG below NBLK only (44_inverse.md R142). -/
theorem LiveAlike.inverse_reads (hicur : s.icur ≤ s.nblk) {v ei : Block} (hv : s.inverseInput = .ok v)
    (hei : s.inverseSource = .ok ei) : s'.inverseInput = .ok v ∧ s'.inverseSource = .ok ei := by
  obtain ⟨buf, log, rfl⟩ : ∃ buf log, s' = { s with buf := buf, log := log } := ⟨_, _, h.frame⟩
  rw [State.inverseInput_ok_iff] at hv ⊢
  rw [State.inverseSource_ok_iff] at hei ⊢
  obtain ⟨hpos, hdepth, hread⟩ := hei
  refine ⟨?_, hpos, hdepth, (h.log (s.icur - 1) (by omega)).trans hread⟩
  obtain hlast | ⟨hlt, hlt', hread'⟩ := hv
  · exact Or.inl hlast
  · exact Or.inr ⟨hlt, hlt', (h.log _ hlt).trans hread'⟩

/-- What a command does it does whatever the dead bytes and words are, up to them. -/
theorem LiveAlike.effect (hicur : s.icur ≤ s.nblk) {i : Instr} (hi : i.hostIssued = true) (he : Effect s i t) :
    ∃ t', Effect s' i t' ∧ LiveAlike t t' := by
  have hbuffered := fun {r : List Byte} => h.buffered (r := r)
  have hreads := fun {v ei : Block} => h.inverse_reads hicur (v := v) (ei := ei)
  obtain ⟨buf, log, rfl⟩ : ∃ buf log, s' = { s with buf := buf, log := log } := ⟨_, _, h.frame⟩
  cases he with
  | gate g => exact absurd rfl (gate_instr_ne_command g hi)
  | nop => exact ⟨_, .nop, h⟩
  | reset => exact ⟨_, .reset, .refl _⟩
  | updateRefused b hfin => exact ⟨_, .updateRefused b hfin, h.raiseErr _⟩
  | updateAppends b hfin hlen => exact ⟨_, .updateAppends b hfin hlen, h.bufWrite b (Or.inr ⟨rfl, rfl⟩)⟩
  | updateCompletes b bs hfin hlen hbs hbuf =>
    exact ⟨_, .updateCompletes b bs hfin hlen hbs (hbuffered hbs hbuf),
      (h.bufWrite b (Or.inl (Nat.le_refl _))).blockStep _ _⟩
  | finalizeRefused hfin => exact ⟨_, .finalizeRefused hfin, h.raiseErr _⟩
  | finalizeHashes r hfin hlen hr hbuf =>
    exact ⟨_, .finalizeHashes r hfin hlen hr (hbuffered hr hbuf), h.blockStep _ _⟩
  | invBeginRefused hfin => exact ⟨_, .invBeginRefused hfin, h.raiseErr _⟩
  | invBeginOverflow hfin hlovf => exact ⟨_, .invBeginOverflow hfin hlovf, h.raiseErr _⟩
  | invBeginArms hfin hlovf => exact ⟨_, .invBeginArms hfin hlovf, ⟨rfl, h.buf, h.log⟩⟩
  | invStepRefused hend => exact ⟨_, .invStepRefused hend, h.raiseErr _⟩
  | invStepNoPadding v ei hia hpos hv hei hcnt =>
    obtain ⟨hv', hei'⟩ := hreads hv hei
    exact ⟨_, .invStepNoPadding v ei hia hpos hv' hei' hcnt, h.endPass.raiseErr _⟩
  | invStepRecovers v ei cnt hia hpos hv hei hcnt =>
    obtain ⟨hv', hei'⟩ := hreads hv hei
    exact ⟨_, .invStepRecovers v ei cnt hia hpos hv' hei' hcnt, ⟨rfl, h.buf, h.log⟩⟩

end Live

/-- Settles O53: the bytes and words an effect reads are live ones, and those it makes live it has written. -/
theorem deadMemoryIsNeverRead : Obligations.DeadMemoryIsNeverRead := by
  intro i s s' t hi hframe hicur hbuf hlog hexec
  obtain ⟨t', he, h⟩ := LiveAlike.effect ⟨hframe, hbuf, hlog⟩ hicur hi (exec_next_iff.mp hexec)
  exact ⟨t', exec_next_iff.mpr he, h.frame, h.buf, h.log⟩

end Sys2Proof.Safety
end

section
namespace Sys2Proof.Machine

/-! ### Bytes and hexadecimal digits of a value (20_memory.md R44, R45) -/

/-- Assembling the bytes of a value gives the value back (20_memory.md R44, R45). -/
theorem blockOfBytes_bytesOf (v : Block) : blockOfBytes (bytesOf v) = v := by
  apply BitVec.eq_of_getLsbD_eq
  intro j hj
  have hbyte : (bytesOf v).getD (31 - j / 8) 0#8 = byteOf v (31 - j / 8) := by
    rw [List.getD_eq_getElem?_getD, bytesOf_getElem? v _ (by omega), Option.getD_some]
  have hbit : 248 - 8 * (31 - j / 8) + j % 8 = j := by omega
  rw [getLsbD_blockOfBytes _ (bytesOf_length v) j hj, hbyte, getLsbD_byteOf v _ _ (by omega), hbit]

@[simp] theorem hexOf_length (v : Block) : (hexOf v).length = 64 := by simp [hexOf]

/-- The hexadecimal characters of a value by index. -/
theorem hexOf_getElem? (v : Block) {k : Nat} (hk : k < 64) : (hexOf v)[k]? = some (hexDigit (nibbleOf v k)) := by
  simp [hexOf, hk]

/-- The digits of the sixteen nibbles in order: lowercase hexadecimal (20_memory.md R45). -/
theorem hexDigits_getElem? : ∀ d : BitVec 4,
    ['0', '1', '2', '3', '4', '5', '6', '7', '8', '9', 'a', 'b', 'c', 'd', 'e', 'f'][d.toNat]? = some (hexDigit d) := by
  decide

/-- Settles O20: both compositions agree bit by bit, and a digit is looked up at the nibble `hexOf` cuts for it. -/
theorem bytesAndBlocksCorrespond : Obligations.BytesAndBlocksCorrespond := by
  refine ⟨fun v => ⟨bytesOf_length v, hexOf_length v, ?_, ?_⟩, fun _ => bytesOf_blockOfBytes, blockOfBytes_bytesOf⟩
  · intro j i hj hi
    exact ⟨byteOf v j, bytesOf_getElem? v j hj, getLsbD_byteOf v j i hi⟩
  · intro k hk
    exact (hexOf_getElem? v hk).trans (hexDigits_getElem? (nibbleOf v k)).symm

end Sys2Proof.Machine
end

/-! ## Encoding (30_encoding.md): the decoder, the command port, the message fed by calls, and the message recovered -/

section
namespace Sys2Proof

/-! ### Command words and their fields (30_encoding.md R62) -/

@[simp] theorem cmdFields_cmdWord (op : BitVec 3) (data : Byte) : cmdFields (cmdWord op data) = { op := op, data := data } := by
  rw [cmdFields, cmdWord, BitVec.extractLsb'_append_eq_left, BitVec.extractLsb'_append_eq_right]

@[simp] theorem cmdWord_cmdFields (w : BitVec 11) : cmdWord (cmdFields w).op (cmdFields w).data = w :=
  (BitVec.extractLsb'_append_extractLsb'_eq_extractLsb' rfl).trans BitVec.extractLsb'_eq_self

/-- The fields of a word by its number. -/
theorem cmdFields_toNat (w : BitVec 11) :
    (cmdFields w).op.toNat = w.toNat / 256 ∧ (cmdFields w).data.toNat = w.toNat % 256 := by
  have hw : w.toNat < 2048 := w.isLt
  simp only [cmdFields, BitVec.extractLsb'_toNat, Nat.shiftRight_eq_div_pow]
  omega

/-! ### The decoder and the encoder (R64 to R67) -/

theorem decodeCmd_cmdWord (op : BitVec 3) (data : Byte) : decodeCmd (cmdWord op data) = decodeFields { op := op, data := data } := by
  rw [decodeCmd, cmdFields_cmdWord]

/-- Decoding undoes encoding, on both formats. -/
theorem decode_encode (i : Instr) : decode (encode i) = .instr i := by
  cases i with
  | update b => exact decodeCmd_cmdWord 0b010#3 b
  | _ => rfl

theorem decodeOperandless_eq_instr_iff {i j : Instr} {f : CmdFields} :
    decodeOperandless i f = .instr j ↔ f.data = 0#8 ∧ i = j := by
  unfold decodeOperandless
  split <;> simp_all

theorem decodeOperandless_eq_illegal_iff {i : Instr} {f : CmdFields} :
    (∃ why, decodeOperandless i f = .illegal why) ↔ f.data ≠ 0#8 := by
  unfold decodeOperandless
  split <;> simp_all

/-- What the decoder answers on a word's fields: a reserved `op`, UPDATE, or a command without operand. -/
theorem decodeFields_cases (f : CmdFields) :
    (6 ≤ f.op.toNat ∧ decodeFields f = .illegal (.reservedOp f.op)) ∨
    (f.op = 0b010#3 ∧ decodeFields f = .instr (.update f.data)) ∨
    (f.op.toNat < 6 ∧ f.op.toNat ≠ 2 ∧ ∃ i, encode i = .cmd (cmdWord f.op 0#8) ∧ decodeFields f = decodeOperandless i f) := by
  obtain ⟨op, data⟩ := f
  dsimp only
  have hops : ∀ k : BitVec 3, k = 0#3 ∨ k = 1#3 ∨ k = 2#3 ∨ k = 3#3 ∨ k = 4#3 ∨ k = 5#3 ∨ k = 6#3 ∨ k = 7#3 := by decide
  obtain rfl | rfl | rfl | rfl | rfl | rfl | rfl | rfl := hops op
  · exact Or.inr (Or.inr ⟨by decide, by decide, .nop, rfl, rfl⟩)
  · exact Or.inr (Or.inr ⟨by decide, by decide, .reset, rfl, rfl⟩)
  · exact Or.inr (Or.inl ⟨rfl, rfl⟩)
  · exact Or.inr (Or.inr ⟨by decide, by decide, .finalize, rfl, rfl⟩)
  · exact Or.inr (Or.inr ⟨by decide, by decide, .invBegin, rfl, rfl⟩)
  · exact Or.inr (Or.inr ⟨by decide, by decide, .invStep, rfl, rfl⟩)
  · exact Or.inl ⟨by decide, rfl⟩
  · exact Or.inl ⟨by decide, rfl⟩

/-- The fields that decode to an instruction are those of its word. -/
theorem encode_of_decodeFields {i : Instr} {f : CmdFields} (h : decodeFields f = .instr i) :
    encode i = .cmd (cmdWord f.op f.data) := by
  obtain ⟨-, hdec⟩ | ⟨hop, hdec⟩ | ⟨-, -, j, henc, hdec⟩ := decodeFields_cases f
  · rw [hdec] at h; cases h
  · rw [hdec] at h
    cases h
    rw [encode, hop]
  · obtain ⟨hdata, rfl⟩ := decodeOperandless_eq_instr_iff.mp (hdec ▸ h)
    rw [henc, hdata]

/-- Each of the four selector codes is the code of the gate it names. -/
theorem encode_decodeSel : ∀ g : BitVec 2, encode (decodeSel g) = .sel g := by decide

theorem encode_of_decode {i : Instr} {c : Encoded} (h : decode c = .instr i) : encode i = c := by
  cases c with
  | sel g =>
    cases h
    exact encode_decodeSel g
  | cmd w => rw [encode_of_decodeFields h, cmdWord_cmdFields]

/-- Settles O1: the encoder is the decoder's inverse, on SEL code by code and on CMD by the two fields of a word. -/
theorem decodeEncodeAgree : Obligations.DecodeEncodeAgree :=
  fun i _ => ⟨encode_of_decode, fun h => h ▸ decode_encode i⟩

/-- Settles O4: the ten words are the encodings of their instructions. -/
theorem wordsOfTheSpecDecode : Obligations.WordsOfTheSpecDecode :=
  ⟨decode_encode .tof, decode_encode .mtof, decode_encode .fre, decode_encode .mfre, decode_encode .nop, decode_encode .reset,
    decode_encode (.update 0x48#8), decode_encode .finalize, decode_encode .invBegin, decode_encode .invStep⟩

/-! ### The opcode table's match and mask pairs, and the illegal words (R65, R66) -/

theorem cmdWord_inj {op op' : BitVec 3} {data data' : Byte} : cmdWord op data = cmdWord op' data' ↔ op = op' ∧ data = data' := by
  refine ⟨fun h => ?_, fun ⟨hop, hdata⟩ => hop ▸ hdata ▸ rfl⟩
  have hfields := congrArg cmdFields h
  rwa [cmdFields_cmdWord, cmdFields_cmdWord, CmdFields.mk.injEq] at hfields

/-- The mask 0x700 keeps `op` and clears `data`. -/
theorem cmdWord_and_opMask (op : BitVec 3) (data : Byte) : cmdWord op data &&& 0x700#11 = cmdWord op 0#8 := by
  rw [show 0x700#11 = BitVec.allOnes 3 ++ 0#8 from rfl, cmdWord, BitVec.and_append, BitVec.and_allOnes, BitVec.and_zero,
    cmdWord]

/-- A word under UPDATE's match and mask is UPDATE's, with its low 8 bits as the byte. -/
theorem encode_update_iff_match (w : BitVec 11) :
    encode (.update (w.setWidth 8)) = .cmd w ↔ w &&& 0x700#11 = 0x200#11 := by
  have hdata : w.setWidth 8 = (cmdFields w).data := BitVec.setWidth_eq_extractLsb' (by decide)
  have hmatch : 0x200#11 = cmdWord 0b010#3 0#8 := rfl
  rw [hdata, encode, Encoded.cmd.injEq, ← cmdWord_cmdFields w, cmdWord_and_opMask, hmatch, cmdFields_cmdWord, cmdWord_inj,
    cmdWord_inj, eq_comm]
  simp only [and_true]

/-- Settles O2: a word under a row's match and mask is the encoding of the row's instruction, and a word that decodes is one of those. -/
theorem commandDecoderFollowsTable : Obligations.CommandDecoderFollowsTable := by
  intro w
  have decodes : ∀ {i : Instr}, encode i = .cmd w → decodeCmd w = .instr i := (decodeEncodeAgree _ (.cmd w)).mpr
  have fixed : w &&& 0x7ff#11 = w := BitVec.and_allOnes
  rw [fixed]
  refine ⟨fun h => decodes (h ▸ rfl), fun h => decodes (h ▸ rfl), fun h => decodes ((encode_update_iff_match w).mpr h),
    fun h => decodes (h ▸ rfl), fun h => decodes (h ▸ rfl), fun h => decodes (h ▸ rfl),
    fun hnop hreset hupdate hfinalize hbegin hstep => ?_⟩
  cases hdec : decodeCmd w with
  | illegal why => exact ⟨why, rfl⟩
  | instr i =>
    have henc : encode i = .cmd w := (decodeEncodeAgree i (.cmd w)).mp hdec
    cases i with
    | nop => cases henc; exact absurd rfl hnop
    | reset => cases henc; exact absurd rfl hreset
    | update b =>
      cases henc
      exact absurd (cmdWord_and_opMask 0b010#3 b) hupdate
    | finalize => cases henc; exact absurd rfl hfinalize
    | invBegin => cases henc; exact absurd rfl hbegin
    | invStep => cases henc; exact absurd rfl hstep
    | _ => cases henc

/-- The illegal fields: `op` 110 or 111, or `data` where no operand is taken (R66). -/
theorem decodeFields_illegal_iff (f : CmdFields) :
    (∃ why, decodeFields f = .illegal why) ↔ 6 ≤ f.op.toNat ∨ (f.op.toNat ≠ 2 ∧ f.data.toNat ≠ 0) := by
  obtain ⟨hop, hdec⟩ | ⟨hop, hdec⟩ | ⟨hlt, hne, i, -, hdec⟩ := decodeFields_cases f
  · exact ⟨fun _ => Or.inl hop, fun _ => ⟨_, hdec⟩⟩
  · simp [hdec, hop]
  · rw [hdec, decodeOperandless_eq_illegal_iff, ← BitVec.toNat_ne_iff_ne]
    exact ⟨fun hdata => Or.inr ⟨hne, hdata⟩, fun h => (h.resolve_left (by omega)).2⟩

/-- Settles O3: the fields of a word are its quotient and remainder by 256; a selector code names a gate whatever it is. -/
theorem illegalWordsAreThoseOfTheMap : Obligations.IllegalWordsAreThoseOfTheMap := by
  refine ⟨fun w => ?_, fun g => ⟨gateOfCode g, rfl⟩⟩
  obtain ⟨hop, hdata⟩ := cmdFields_toNat w
  rw [decodeCmd, decodeFields_illegal_iff, hop, hdata]

end Sys2Proof

namespace Sys2Proof.Machine
open Sys2Proof.Safety

/-! ### What a step fetches, and what it does with it (R62; 70_reset_and_hazards.md R176) -/

section CommandPort
variable {s : State} {w : BitVec 11} {rest : List HostEvent}

theorem fetchWord_of_instr {i : Instr} (h : decodeCmd w = .instr i) : fetchWord w = .command i := by
  rw [fetchWord, h]

theorem fetchWord_of_illegal {why : Illegal} (h : decodeCmd w = .illegal why) : fetchWord w = .illegal why := by
  rw [fetchWord, h]

/-- A word presented to an idle sequencer is fetched. -/
theorem State.fetch_of_presented (hidle : s.pass = .idle) (hin : s.input = .cmd w :: rest) : s.fetch = fetchWord w := by
  rw [State.fetch, hin, hidle]

theorem State.consume_of_input {ev : HostEvent} (hin : s.input = ev :: rest) : s.consume = { s with input := rest } := by
  rw [State.consume, hin, List.tail_cons]

end CommandPort

/-- Settles O37. -/
theorem stepRunsDecodedCommand : Obligations.StepRunsDecodedCommand := by
  intro s w rest i hidle hin hdec
  rw [step, State.fetch_of_presented hidle hin, fetchWord_of_instr hdec, State.consume_of_input hin]

/-- The error entry latches its code, and nothing else (60_exceptions.md R156, R158). -/
theorem latched_raiseErr (c : ErrCode) (s : State) : Latched c.code s (s.raiseErr c) :=
  ⟨fun herr => if_neg (by rw [herr]; decide), fun herr => if_pos herr⟩

/-- Settles O38: the words are those the decoder refuses, and a refused word is an error entry on the state with the word taken. -/
theorem stepRaisesIllegalCommand : Obligations.StepRaisesIllegalCommand := by
  intro s w rest hidle hin hword
  obtain ⟨why, hdec⟩ := (illegalWordsAreThoseOfTheMap.1 w).mpr hword
  refine ⟨s.consume.raiseErr .illegalCmd, ?_, State.consume_of_input hin ▸ latched_raiseErr .illegalCmd _⟩
  rw [step, State.fetch_of_presented hidle hin, fetchWord_of_illegal hdec]

/-! ### An instruction placed where a step fetches it (log 7) -/

/-- A numbered word of the table that decodes is an encoded form that decodes. -/
theorem decodeTableWord_eq_some {nbits w : Nat} {i : Instr} (h : decodeTableWord nbits w = some i) :
    ∃ c, tableEncoded nbits w = some c ∧ decode c = .instr i := by
  unfold decodeTableWord at h
  split at h
  · cases h
  · next c hc =>
    split at h
    · next j hj =>
      cases h
      exact ⟨c, hc, hj⟩
    · cases h

theorem head?_dropResets (es : List HostEvent) : (dropResets es).head? ≠ some .rst := by
  induction es with
  | nil => exact nofun
  | cons ev es ih =>
    cases ev with
    | cmd w => exact nofun
    | rst => exact ih

/-- The code of layer 1 is the two highest bits of the source (41_selector.md R90, R91). -/
theorem sel_one_append (g : BitVec 2) (v : BitVec 254) : sel (N := 256) (g ++ v) 1 = g :=
  BitVec.extractLsb'_append_eq_left

/-- A placed code is what the first sublayer pass of layer 1 runs. -/
theorem State.fetch_placeCode (g : BitVec 2) (s : State) : (s.placeCode g).fetch = .gate (decodeSel g) (s.placeCode g).e := by
  have hin : InPass (s.placeCode g).e (s.placeCode g) :=
    { busy := nofun
      layer := ⟨Nat.le_refl 1, show 1 ≤ Config.nLayers by decide⟩
      source := rfl
      noReset := head?_dropResets s.input }
  rw [State.fetch_of_inPass hin, decodeSel, layerGate]
  congr 3
  exact sel_one_append g _

/-- Settles O43: a placed word is presented to an idle sequencer, a placed code stands at layer 1 of a forward pass. -/
theorem placedWordIsFetched : Obligations.PlacedWordIsFetched := by
  intro s nbits w i htable
  obtain ⟨c, hc, hdec⟩ := decodeTableWord_eq_some htable
  rw [State.withFetchWord, hc]
  cases c with
  | sel g =>
    cases hdec
    exact Or.inr ⟨_, s.fetch_placeCode g⟩
  | cmd word => exact Or.inl ((State.fetch_of_presented rfl rfl).trans (fetchWord_of_instr hdec))

end Sys2Proof.Machine
end

section
namespace Sys2Proof.Machine

/-! ### Runs of commands (30_encoding.md R70) -/

theorem runCommands_cons {i : Instr} {s t : State} (h : exec i s = .next t) (is : List Instr) :
    runCommands (i :: is) s = runCommands is t := by
  rw [runCommands, h]

/-- A program leaves LOGDEPTH alone (00_scope.md R4). -/
theorem runCommands_logDepth {is : List Instr} {s t : State} (h : runCommands is s = .next t) : t.logDepth = s.logDepth := by
  induction is generalizing s with
  | nil => cases h; rfl
  | cons i is ih =>
    rw [runCommands] at h
    split at h
    · next u hu => exact (ih h).trans (exec_keepsMemory hu).logDepth_eq
    · cases h
    · cases h

end Sys2Proof.Machine

namespace Sys2Proof.Safety
open Sys2Proof.Machine

/-! ### A message fed byte by byte (43_chunk_pipeline.md R119, R126) -/

/-- At a command boundary the machine has accepted `m` since the last reset and is not finalized. -/
structure Accepts (m : List Byte) (s : State) : Prop where
  regular : Regular s
  follows : Follows m s
  isOpen : s.status.fin = false

/-- At a command boundary the machine has hashed `m`. -/
structure Hashed (m : List Byte) (s : State) : Prop where
  regular : Regular s
  follows : Follows m s
  finalized : s.status.fin = true

/-- The error latch is as it was. -/
def SameLatch (s t : State) : Prop := t.status.err = s.status.err ∧ t.status.errcode = s.status.errcode

theorem SameLatch.trans {s t u : State} (hst : SameLatch s t) (htu : SameLatch t u) : SameLatch s u :=
  ⟨htu.1.trans hst.1, htu.2.trans hst.2⟩

theorem sameLatch_blockStep (fin : Bool) (b : Block) (s : State) : SameLatch s (s.blockStep fin b) := by
  rw [SameLatch, State.blockStep_status]
  exact ⟨rfl, rfl⟩

theorem accepts_toReset {s : State} (hdepth : 1 ≤ s.logDepth) : Accepts [] s.toReset :=
  ⟨(atReset_toReset s).regular hdepth (deadLayer_range s.free), (atReset_toReset s).follows_nil, rfl⟩

theorem Hashed.portDigest_eq {m : List Byte} {s : State} (h : Hashed m s) : s.portDigest = HASH m := by
  rw [State.portDigest, if_pos h.finalized, h.follows.source, blocksDone_finalized h.finalized, HASH]

theorem Hashed.rawDigest_eq {m : List Byte} {s : State} (h : Hashed m s) : s.rawDigest = bytesOf (HASH m) := by
  rw [State.rawDigest, h.portDigest_eq]

section Accepting
variable {m : List Byte} {s : State} (h : Accepts m s)
include h

/-- UPDATE appends its byte to the message, whether or not the byte completes a block (R119, R121). -/
theorem Accepts.exec_update (b : Byte) : ∃ t, exec (.update b) s = .next t ∧ Accepts (m ++ [b]) t ∧ SameLatch s t := by
  obtain ⟨hr, hm, hfin⟩ := h
  rcases Nat.lt_or_eq_of_le hr.buflen with hlen | hlen
  · exact ⟨_, exec_update_of_room hfin hlen b,
      ⟨hr.bufWrite (Nat.lt_succ_of_lt hlen) b hlen hfin (Or.inr ⟨rfl, rfl⟩), hm.bufWrite hr hfin hlen b, hfin⟩, rfl, rfl⟩
  · obtain ⟨hcount, hbuf⟩ := hm.lastBytes_buffered hfin
    have hfull := exec_update_of_full hfin hlen (by rw [length_lastBytes, ← hcount, hlen]) hbuf b
    rw [State.blockStep_of_buflen false _ { s with buf := Memory.write s.buf 31 b } 32] at hfull
    have hregular := (hr.bufWrite (a := 31) (by decide) b hr.buflen hfin (Or.inl (Nat.le_refl _))).blockStep hfin false
      (blockOfBytes (lastBytes m ++ [b]))
    exact ⟨_, hfull, ⟨hregular, hm.completeBlock hr hfin hlen b, by simp [State.blockStep_status, hfin]⟩,
      sameLatch_blockStep false _ { s with buf := Memory.write s.buf 31 b }⟩

/-- `update` appends its bytes to the message (R71, R119). -/
theorem Accepts.run_callUpdate (bs : List Byte) :
    ∃ t, runCommands (callUpdate bs) s = .next t ∧ Accepts (m ++ bs) t ∧ SameLatch s t := by
  induction bs generalizing m s with
  | nil => exact ⟨s, rfl, by rwa [List.append_nil], rfl, rfl⟩
  | cons b bs ih =>
    obtain ⟨t, hexec, ht, hlatch⟩ := h.exec_update b
    obtain ⟨u, hrun, hu, hlatch'⟩ := ih ht
    rw [List.append_assoc] at hu
    exact ⟨u, (runCommands_cons hexec _).trans hrun, hu, hlatch.trans hlatch'⟩

/-- FINALIZE hashes the message (R119, R122). -/
theorem Accepts.exec_finalize : ∃ t, exec .finalize s = .next t ∧ Hashed m t ∧ SameLatch s t := by
  obtain ⟨hr, hm, hfin⟩ := h
  obtain ⟨hcount, hbuf⟩ := hm.lastBytes_buffered hfin
  exact ⟨_, exec_finalize_of_buffered hfin hr.buflen (by rw [length_lastBytes, hcount]) hbuf,
    ⟨hr.blockStep hfin _ _, hm.finalize hr hfin, by simp [State.blockStep_status]⟩, sameLatch_blockStep _ _ _⟩

end Accepting

/-- `new(m)` issued in any state leaves one that has accepted `m`, its error latch clear (30_encoding.md R72). -/
theorem run_callNew {s : State} (hdepth : 1 ≤ s.logDepth) (m : List Byte) :
    ∃ t, runCommands (callNew m) s = .next t ∧ Accepts m t ∧ t.status.err = false := by
  obtain ⟨t, hrun, ht, herr, -⟩ := (accepts_toReset hdepth).run_callUpdate m
  exact ⟨t, (runCommands_cons rfl _).trans hrun, ht, herr⟩

/-- The commands that hash a message, issued in any state (43_chunk_pipeline.md R119). -/
theorem run_callNewFunction {s : State} (hdepth : 1 ≤ s.logDepth) (m : List Byte) :
    ∃ t, runCommands (callNewFunction m) s = .next t ∧ Hashed m t ∧ t.status.err = false ∧ t.logDepth = s.logDepth := by
  obtain ⟨t, hnew, ht, herr⟩ := run_callNew hdepth m
  obtain ⟨u, hexec, hu, hlatch⟩ := ht.exec_finalize
  have hrun : runCommands (callNewFunction m) s = .next u := (runCommands_append hnew).trans (runCommands_cons hexec [])
  exact ⟨u, hrun, hu, hlatch.1.trans herr, runCommands_logDepth hrun⟩

/-- Settles O57: the commands of the calls are those of one `new` of the whole message, which FINALIZE then hashes. -/
theorem chunksMakeNoDifference : Obligations.ChunksMakeNoDifference := by
  refine ⟨fun chunks s hdepth => ?_, fun m bs s hr hm hfin => ?_⟩
  · obtain ⟨t, hnew, ht, -⟩ := run_callNew hdepth chunks.flatten
    obtain ⟨u, hexec, hu, -⟩ := ht.exec_finalize
    have hdigest : runDigest t = .next (u, bytesOf (HASH chunks.flatten)) :=
      hu.rawDigest_eq ▸ runDigest_of_finalize ht.isOpen hexec
    refine ⟨t, u, ?_, hdigest, hu.portDigest_eq, ?_, (runNewFunction_of_new hnew).trans hdigest, ?_⟩
    · rw [callUpdate_flatten]
      exact hnew
    · rw [runHexdigest_of_runDigest hdigest, hexOfBytes_bytesOf]
    · rw [runDigest_finalized hu.finalized, hu.rawDigest_eq]
  · obtain ⟨t, hrun, ⟨hregular, hfollows, hopen⟩, herr, hcode⟩ := Accepts.run_callUpdate ⟨hr, hm, hfin⟩ bs
    exact ⟨t, hrun, hregular, hfollows, hopen, herr, hcode⟩

end Sys2Proof.Safety
end

section
namespace Sys2Proof.Machine

/-! ### The host's store of recovered bytes (30_encoding.md R79; log 14) -/

/-- A run of bytes as the cells of a store, from an offset up. -/
def cellsFrom : Nat → List Byte → List Host.Cell
  | _, [] => []
  | off, b :: bs => (off, b) :: cellsFrom (off + 1) bs

theorem map_fst_cellsFrom (off : Nat) (bs : List Byte) : (cellsFrom off bs).map Prod.fst = List.range' off bs.length := by
  induction bs generalizing off with
  | nil => rfl
  | cons b bs ih => rw [cellsFrom, List.map_cons, ih, List.length_cons, List.range'_succ]

theorem map_snd_cellsFrom (off : Nat) (bs : List Byte) : (cellsFrom off bs).map Prod.snd = bs := by
  induction bs generalizing off with
  | nil => rfl
  | cons b bs ih => rw [cellsFrom, List.map_cons, ih]

/-- A byte written below all the cells comes first. -/
theorem write_cellsFrom {off a : Nat} (ha : a < off) (b : Byte) (bs : List Byte) :
    Memory.write (cellsFrom off bs) a b = (a, b) :: cellsFrom off bs := by
  cases bs with
  | nil => rfl
  | cons c bs => exact if_pos ha

/-- Bytes placed above a cell leave it first. -/
theorem placeBytes_cons {a off : Nat} (ha : a < off) (v : Byte) (mem : List Host.Cell) (bs : List Byte) :
    placeBytes ((a, v) :: mem) off bs = (a, v) :: placeBytes mem off bs := by
  induction bs generalizing mem off with
  | nil => rfl
  | cons b bs ih =>
    have hwrite : Memory.write ((a, v) :: mem) off b = (a, v) :: Memory.write mem off b := by
      rw [Memory.write, if_neg (by omega), if_neg (by omega)]
    rw [placeBytes, hwrite, ih (by omega), placeBytes]

/-- The first `n` bytes of a run placed in front of the rest make the run. -/
theorem placeBytes_take (n off : Nat) (bs : List Byte) :
    placeBytes (cellsFrom (off + n) (bs.drop n)) off (bs.take n) = cellsFrom off bs := by
  induction n generalizing off bs with
  | zero => rfl
  | succ n ih =>
    cases bs with
    | nil => rfl
    | cons b bs =>
      rw [List.drop_succ_cons, List.take_succ_cons, placeBytes, write_cellsFrom (by omega),
        placeBytes_cons (Nat.lt_succ_self off), show off + (n + 1) = off + 1 + n by omega, ih, cellsFrom]

section Recovery
variable {s t : State}

theorem recoverBlocks_succ (h : exec .invStep s = .next t) (n : Nat) (mem : List Host.Cell) :
    recoverBlocks (n + 1) s mem = recoverBlocks n t (placeBytes mem t.recoveredOffset t.recoveredBytes) := by
  rw [recoverBlocks, h]

theorem runInvert_of_begin (h : exec .invBegin s = .next t) : runInvert s = recoverBlocks t.nblk t [] := by
  rw [runInvert, h]

end Recovery

/-! ### The message bytes of a block (43_chunk_pipeline.md R116, R118; 44_inverse.md R142) -/

theorem length_padMessage (m : List Byte) : (padMessage m).length = Config.blockBytes * blockCount m := by
  have hdiv := Nat.div_add_mod m.length Config.blockBytes
  have hlt := Nat.mod_lt m.length (show 0 < Config.blockBytes by decide)
  rw [padMessage, padBytes, List.length_append, List.length_replicate, blockCount, Nat.mul_succ]
  omega

/-- The bytes of a message block are 32 of the padded message. -/
theorem bytesOf_messageBlock (m : List Byte) {i : Nat} (hi : i < blockCount m) :
    bytesOf (messageBlock m i) = ((padMessage m).drop (Config.blockBytes * i)).take Config.blockBytes := by
  have hblock : Config.blockBytes * (i + 1) ≤ (padMessage m).length := by
    rw [length_padMessage]
    exact Nat.mul_le_mul_left _ hi
  refine bytesOf_blockOfBytes ?_
  rw [List.length_take, List.length_drop]
  simp only [Config.blockBytes] at *
  omega

/-- A block without its padding is the message's next bytes, up to 32. -/
theorem bytesOf_messageBlock_take (m : List Byte) {i : Nat} (hi : i < blockCount m) :
    (bytesOf (messageBlock m i)).take
      (if i + 1 = blockCount m then m.length % Config.blockBytes else Config.blockBytes) =
    (m.drop (Config.blockBytes * i)).take Config.blockBytes := by
  have hdiv := Nat.div_add_mod m.length Config.blockBytes
  have hlt := Nat.mod_lt m.length (show 0 < Config.blockBytes by decide)
  rw [bytesOf_messageBlock m hi, List.take_take, padMessage]
  rw [blockCount] at hi ⊢
  split
  · next hlast =>
    obtain rfl : i = m.length / Config.blockBytes := by omega
    rw [List.drop_append_of_le_length (Nat.mul_div_le _ _), Nat.min_eq_left hlt.le,
      List.take_append_of_le_length (by rw [List.length_drop]; omega)]
    rw [List.take_of_length_le (by rw [List.length_drop]; omega), List.take_of_length_le (by rw [List.length_drop]; omega)]
  · next hbelow =>
    have hblock : Config.blockBytes * (i + 1) ≤ m.length :=
      (Nat.mul_le_mul_left _ (by omega)).trans (Nat.mul_div_le _ _)
    rw [Nat.mul_succ] at hblock
    rw [List.drop_append_of_le_length (by omega), Nat.min_self,
      List.take_append_of_le_length (by rw [List.length_drop]; omega)]

end Sys2Proof.Machine

namespace Sys2Proof.Safety
open Sys2Proof.Machine

/-! ### The inverse path over a whole message (44_inverse.md R141 to R143) -/

/-- At a command boundary the inverse path of the hashed message `m` is armed, its log whole, and no error has been raised. -/
structure Inverting (m : List Byte) (s : State) : Prop where
  regular : Regular s
  follows : Follows m s
  armed : s.status.ia = true
  noErr : s.status.err = false

/-- With the log deep enough for the message, all its blocks are logged and LOVF = 0. -/
theorem Hashed.chain_logged {m : List Byte} {s : State} (h : Hashed m s) (hdepth : blockCount m ≤ s.logDepth) :
    s.nblk = blockCount m ∧ s.status.lovf = false := by
  obtain ⟨hnblk, hlovf⟩ := h.follows.counted
  rw [blocksDone_finalized h.finalized] at hnblk hlovf
  exact ⟨by omega, by rw [hlovf]; exact decide_eq_false (by omega)⟩

/-- INV_BEGIN arms the path at the last block (R141). -/
theorem Hashed.exec_invBegin {m : List Byte} {s : State} (h : Hashed m s) (hdepth : blockCount m ≤ s.logDepth)
    (herr : s.status.err = false) :
    ∃ t, exec .invBegin s = .next t ∧ Inverting m t ∧ t.icur = blockCount m := by
  obtain ⟨hnblk, hlovf⟩ := h.chain_logged hdepth
  exact ⟨_, exec_invBegin_of_chain h.finalized hlovf, ⟨h.regular.armed h.finalized hlovf, h.follows.armed, rfl, herr⟩, hnblk⟩

section Inverse
variable {m : List Byte} {s : State} (h : Inverting m s)
include h

theorem Inverting.nblk_eq : s.nblk = blockCount m := by
  obtain ⟨hfin, hlovf⟩ := h.regular.ia h.armed
  rw [h.follows.nblk_of_not_overflowed hlovf, blocksDone_finalized hfin]

/-- INV_STEP shows one block, without an error (R142, R143). -/
theorem Inverting.exec_invStep (hpos : s.icur ≠ 0) :
    ∃ t, exec .invStep s = .next t ∧ Inverting m t ∧ t.icur + 1 = s.icur ∧ t.status.rv = true := by
  have hlt := Nat.mod_lt m.length (show 0 < Config.blockBytes by decide)
  refine ⟨_, h.follows.exec_invStep h.regular h.armed hpos,
    ⟨h.regular.recovered h.armed hpos _ ?_, h.follows.recovered_block hpos, h.armed, h.noErr⟩,
    Nat.succ_pred_eq_of_ne_zero hpos, rfl⟩
  split
  · exact hlt.le
  · exact Nat.le_refl 32

/-- `k` commands INV_STEP go `k` blocks down. -/
theorem Inverting.run_invSteps {k : Nat} (hk : k ≤ s.icur) :
    ∃ t, runCommands (List.replicate k .invStep) s = .next t ∧ Inverting m t ∧ t.icur + k = s.icur ∧
      (1 ≤ k → t.status.rv = true) := by
  induction k generalizing s with
  | zero => exact ⟨s, rfl, h, rfl, nofun⟩
  | succ k ih =>
    obtain ⟨t, hexec, ht, hicur, hrv⟩ := h.exec_invStep (by omega)
    obtain ⟨u, hrun, hu, hicur', hrv'⟩ := ih ht (by omega)
    refine ⟨u, (runCommands_cons hexec _).trans hrun, hu, by omega, fun _ => ?_⟩
    cases k with
    | zero => cases hrun; exact hrv
    | succ k => exact hrv' (Nat.le_add_left 1 k)

/-- The bytes the host reads after an INV_STEP are the message's, at the offset it reads with them (R142). -/
theorem Inverting.recoveredBytes_eq (hrv : s.status.rv = true) :
    s.recoveredBytes = (m.drop s.recoveredOffset).take Config.blockBytes := by
  obtain ⟨hblock, hcount⟩ := h.follows.recovered hrv
  have hlt := (h.regular.rv hrv).2
  rw [h.nblk_eq] at hcount hlt
  rw [State.recoveredBytes, hblock, hcount, State.recoveredOffset]
  exact bytesOf_messageBlock_take m hlt

/-- Recovering the blocks below a store that holds the bytes above them fills it with the whole message. -/
theorem Inverting.recoverBlocks_eq {n : Nat} (hn : s.icur = n) :
    ∃ t, recoverBlocks n s (cellsFrom (Config.blockBytes * n) (m.drop (Config.blockBytes * n))) = some (t, cellsFrom 0 m) ∧
      Inverting m t ∧ t.icur = 0 := by
  induction n generalizing s with
  | zero => exact ⟨s, rfl, h, hn⟩
  | succ n ih =>
    obtain ⟨t, hexec, ht, hicur, hrv⟩ := h.exec_invStep (by omega)
    have hoff : t.recoveredOffset = Config.blockBytes * n := by rw [State.recoveredOffset]; congr 1; omega
    obtain ⟨u, hrec, hu⟩ := ih ht (by omega)
    refine ⟨u, ?_, hu⟩
    rw [recoverBlocks_succ hexec, ht.recoveredBytes_eq hrv, hoff, Nat.mul_succ, ← List.drop_drop, placeBytes_take, hrec]

end Inverse

/-- `invert()` on an armed path collects the message (30_encoding.md R79). -/
theorem Inverting.runInvert_eq {m : List Byte} {s t : State} (hexec : exec .invBegin s = .next t) (h : Inverting m t)
    (hicur : t.icur = blockCount m) :
    ∃ u, runInvert s = some (u, cellsFrom 0 m) ∧ Inverting m u ∧ u.icur = 0 := by
  obtain ⟨u, hrec, hu⟩ := h.recoverBlocks_eq hicur
  refine ⟨u, ?_, hu⟩
  have hempty : m.drop (Config.blockBytes * blockCount m) = [] :=
    List.drop_eq_nil_of_le (by rw [← length_padMessage, padMessage, List.length_append]; exact Nat.le_add_right _ _)
  rw [hempty, cellsFrom] at hrec
  rw [runInvert_of_begin hexec, h.nblk_eq, hrec]

/-- Settles O55: the hashed message arms the path at its last block, each INV_STEP shows the block below, and its bytes are placed in front
of those collected before. -/
theorem invertRecoversMessage : Obligations.InvertRecoversMessage := by
  intro s m hdepth
  obtain ⟨t, hhash, ht, herr, hsame⟩ := run_callNewFunction (Nat.le_trans (Nat.le_add_left 1 _) hdepth) m
  rw [← hsame] at hdepth
  obtain ⟨u, hbegin, hu, hicur⟩ := ht.exec_invBegin hdepth herr
  constructor
  · obtain ⟨v, hinvert, hv, hzero⟩ := hu.runInvert_eq hbegin hicur
    refine ⟨t, v, _, hhash, (ht.chain_logged hdepth).1, hinvert, hv.noErr, hzero, ?_, map_snd_cellsFrom 0 m⟩
    rw [map_fst_cellsFrom, List.range_eq_range']
  · intro k hk hle
    obtain ⟨v, hsteps, hv, hicur', hrv⟩ := hu.run_invSteps (k := k) (by omega)
    have hrv := hrv hk
    obtain ⟨hblock, hcount⟩ := hv.follows.recovered hrv
    have hpos : v.icur = blockCount m - k := by omega
    refine ⟨v, ?_, hv.noErr, hpos, hpos ▸ hblock, ?_⟩
    · have hprefix : runCommands ([.reset] ++ m.map .update ++ [.finalize, .invBegin]) s = .next u := by
        rw [show ([.finalize, .invBegin] : List Instr) = [.finalize] ++ [.invBegin] from rfl, ← List.append_assoc]
        exact (runCommands_append hhash).trans (runCommands_cons hbegin [])
      exact (runCommands_append hprefix).trans hsteps
    · rw [hcount, hv.nblk_eq]
      have hk1 : v.icur + 1 = blockCount m ↔ k = 1 := by omega
      simp only [hk1, Config.blockBytes]

end Sys2Proof.Safety
end

/-! ## Gates (40_gates.md): the laws of the four gates, and the gate instructions on S -/

section
namespace Sys2Proof.Machine

/-! ### The formulas (R81 to R84) -/

section Formulas
variable (a b c : Bool)

theorem gate_tof_mk : gate .tof ⟨a, b, c⟩ = ⟨a, b, c ^^ (a && b)⟩ := rfl

theorem gate_mtof_mk : gate .mtof ⟨a, b, c⟩ = ⟨a ^^ (b && c), b, c⟩ := rfl

theorem gate_fre_mk : gate .fre ⟨a, b, c⟩ = ⟨if c then b else a, if c then a else b, c⟩ := by
  cases c <;> rfl

theorem gate_mfre_mk : gate .mfre ⟨a, b, c⟩ = ⟨a, if a then c else b, if a then b else c⟩ := by
  cases a <;> rfl

end Formulas

/-- Every gate fixes 000 (R87). -/
theorem gate_zero (g : Gate) : gate g ⟨false, false, false⟩ = ⟨false, false, false⟩ := by
  cases g <;> rfl

/-- TOF flips its target when both controls are 1, and does nothing otherwise. -/
theorem gate_tof_eq (t : Triple) : gate .tof t = if t.a && t.b then { t with c := !t.c } else t := by
  obtain ⟨a, b, c⟩ := t
  rw [gate_tof_mk]
  split
  · next hab => rw [hab, Bool.xor_true]
  · next hab => rw [Bool.eq_false_of_not_eq_true hab, Bool.xor_false]

/-! ### Mirroring (R82, R84) -/

theorem Triple.reverse_reverse (t : Triple) : t.reverse.reverse = t := rfl

theorem Triple.ones_reverse (t : Triple) : t.reverse.ones = t.ones := by
  simp only [Triple.ones, Triple.reverse]
  omega

/-- Gate `g'` is gate `g` with the triple read in the opposite order. -/
def Mirrors (g' g : Gate) : Prop := ∀ t, gate g' t = (gate g t.reverse).reverse

theorem mtof_mirrors_tof : Mirrors .mtof .tof := by
  rintro ⟨a, b, c⟩
  rw [gate_mtof_mk, Bool.and_comm]
  rfl

theorem mfre_mirrors_fre : Mirrors .mfre .fre := by
  rintro ⟨a, b, c⟩
  rw [gate_mfre_mk, Triple.reverse, gate_fre_mk]
  rfl

theorem Mirrors.ones {g g' : Gate} (h : Mirrors g' g) (t : Triple) : (gate g' t).ones = (gate g t.reverse).ones := by
  rw [h, Triple.ones_reverse]

/-! ### The number of 1 bits (R87) -/

theorem ones_gate_fre (t : Triple) : (gate .fre t).ones = t.ones := by
  obtain ⟨a, b, c⟩ := t
  cases c
  · rfl
  · exact congrArg (· + _) (Nat.add_comm _ _)

theorem ones_gate_mfre (t : Triple) : (gate .mfre t).ones = t.ones := by
  rw [mfre_mirrors_fre.ones, ones_gate_fre, Triple.ones_reverse]

/-- The two triples differ by exactly one in their number of 1 bits. -/
def OnesDifferByOne (t u : Triple) : Prop := u.ones = t.ones + 1 ∨ u.ones + 1 = t.ones

theorem onesDifferByOne_gate_tof {t : Triple} (hacts : gate .tof t ≠ t) : OnesDifferByOne t (gate .tof t) := by
  rw [gate_tof_eq] at hacts ⊢
  split
  · obtain ⟨a, b, c⟩ := t
    cases c
    · exact Or.inl rfl
    · exact Or.inr rfl
  · next hab => exact absurd (if_neg hab) hacts

theorem onesDifferByOne_gate_mtof {t : Triple} (hacts : gate .mtof t ≠ t) : OnesDifferByOne t (gate .mtof t) := by
  have htof : gate .tof t.reverse ≠ t.reverse := fun heq => hacts (by rw [mtof_mirrors_tof, heq, Triple.reverse_reverse])
  have hdiff := onesDifferByOne_gate_tof htof
  rwa [OnesDifferByOne, Triple.ones_reverse, ← mtof_mirrors_tof.ones] at hdiff

/-! ### Bijections and transpositions (R86) -/

theorem gate_involutive (g : Gate) : Function.Involutive (gate g) := gate_gate g

/-- The gate exchanges the two triples and fixes every other one. -/
def Exchanges (g : Gate) (p q : Triple) : Prop := gate g p = q ∧ gate g q = p ∧ ∀ t, t ≠ p → t ≠ q → gate g t = t

theorem tof_exchanges : Exchanges .tof ⟨true, true, false⟩ ⟨true, true, true⟩ := by
  refine ⟨rfl, rfl, fun ⟨a, b, c⟩ hp hq => ?_⟩
  rw [gate_tof_eq, if_neg]
  intro hab
  obtain ⟨rfl, rfl⟩ := (Bool.and_eq_true a b).mp hab
  cases c
  · exact hp rfl
  · exact hq rfl

theorem fre_exchanges : Exchanges .fre ⟨false, true, true⟩ ⟨true, false, true⟩ := by
  refine ⟨rfl, rfl, fun ⟨a, b, c⟩ hp hq => ?_⟩
  cases c
  · rfl
  · cases a <;> cases b
    · rfl
    · exact absurd rfl hp
    · exact absurd rfl hq
    · rfl

/-- A mirrored gate exchanges the reversed triples. -/
theorem Mirrors.exchanges {g g' : Gate} (hm : Mirrors g' g) {p q : Triple} (h : Exchanges g p q) :
    Exchanges g' p.reverse q.reverse := by
  obtain ⟨hpq, hqp, hfix⟩ := h
  refine ⟨by rw [hm, Triple.reverse_reverse, hpq], by rw [hm, Triple.reverse_reverse, hqp], fun t hp hq => ?_⟩
  rw [hm, hfix t.reverse (fun ht => hp (congrArg Triple.reverse ht)) (fun ht => hq (congrArg Triple.reverse ht)),
    Triple.reverse_reverse]

theorem Exchanges.symm {g : Gate} {p q : Triple} (h : Exchanges g p q) : Exchanges g q p := by
  obtain ⟨hpq, hqp, hfix⟩ := h
  exact ⟨hqp, hpq, fun t hq hp => hfix t hp hq⟩

/-- Settles O5: the formulas are the definitions, the tables evaluate, and the mirrored gates follow from TOF and FRE. -/
theorem gateTruthTables : Obligations.GateTruthTables :=
  ⟨by decide, fun _ _ _ => ⟨rfl, rfl, rfl, rfl⟩, by decide, by decide, by decide, by decide,
    fun t => ⟨mtof_mirrors_tof t, mfre_mirrors_fre t⟩, fun t => ⟨ones_gate_fre t, ones_gate_mfre t⟩⟩

/-- Settles O6: an involution is a bijection, and the exchanges and counts of MTOF and MFRE mirror those of TOF and FRE. -/
theorem gateLaws : Obligations.GateLaws := by
  refine ⟨gate_involutive, fun g => ⟨fun _ _ h => (gate_involutive g).injective h, (gate_involutive g).surjective⟩,
    tof_exchanges, mtof_mirrors_tof.exchanges tof_exchanges, fre_exchanges, ?_, gate_zero, ?_, ?_, rfl, rfl⟩
  · exact (mfre_mirrors_fre.exchanges fre_exchanges).symm
  · rintro ⟨a, b, c⟩
    rw [gate_fre_mk, gate_mfre_mk]
    exact ⟨rfl, rfl, rfl, rfl, rfl, rfl⟩
  · rintro g t (rfl | rfl) hacts
    · exact onesDifferByOne_gate_tof hacts
    · exact onesDifferByOne_gate_mtof hacts

/-! ### The bits of a lane in and outside the triples (42_network.md R97, R98) -/

theorem readTriple_eq_mk_iff {w : Nat} {v : BitVec w} {p : Nat} {a b c : Bool} :
    readTriple v p = ⟨a, b, c⟩ ↔ v.getLsbD p = a ∧ v.getLsbD (p + 1) = b ∧ v.getLsbD (p + 2) = c := by
  rw [readTriple, Triple.mk.injEq]

/-- The bits left over by pass s, one in each half of a lane, are in none of its triples. -/
theorem leftOver_outside {w : Nat} {s : Fin 2} {j : Nat} (hj : (j + 1) % 16 = s.val) :
    ∀ t ∈ tripleBases w s, j < t ∨ t + 2 < j := by
  intro t ht
  obtain ⟨h, k, -, hk, rfl⟩ := mem_tripleBases.mp ht
  have hs := s.isLt
  unfold tripleBase
  by_contra hin
  have hlow : h < (j + 1) / 16 := by omega
  have hhigh : (j + 1) / 16 < h + 1 := by omega
  omega

end Sys2Proof.Machine

namespace Sys2Proof.Safety
open Sys2Proof.Machine

/-- The zigzag as the statements name it (42_network.md R96). -/
theorem active_iff_laneActive {L n : Nat} : active L n = true ↔ LaneActive L n := by
  have hL : L % 4 = 0 ∨ L % 4 = 1 ∨ L % 4 = 2 ∨ L % 4 = 3 := by omega
  unfold active LaneActive
  obtain h | h | h | h := hL <;> simp [h]

/-! ### The gate instructions on the lanes (42_network.md R99) -/

section Lanes
variable {s : State} {n : Nat} (hn : n < 8)

theorem gateAt_lane_of_inactive (g : Gate) (hlane : ¬ LaneActive s.l n) : (s.gateAt g).x[n] = s.x[n] := by
  rw [State.gateAt_x, subPass_getElem, if_neg (mt active_iff_laneActive.mp hlane)]

theorem gateAt_lane_of_active (g : Gate) (hlane : LaneActive s.l n) : (s.gateAt g).x[n] = lanePass g s.sub s.x[n] := by
  rw [State.gateAt_x, subPass_getElem, if_pos (active_iff_laneActive.mpr hlane)]

/-- A triple of an active lane becomes the gate of itself. -/
theorem readTriple_gateAt (g : Gate) (hlane : LaneActive s.l n) {h k : Nat} (hh : h < 2) (hk : k < 5) :
    readTriple (s.gateAt g).x[n] (16 * h + 3 * k + s.sub.val) = gate g (readTriple s.x[n] (16 * h + 3 * k + s.sub.val)) := by
  rw [gateAt_lane_of_active hn g hlane]
  exact readTriple_lanePass g s.sub s.x[n] (mem_tripleBases.mpr ⟨h, k, hh, hk, rfl⟩)

/-- A left-over bit of an active lane is copied. -/
theorem getLsbD_gateAt_leftOver (g : Gate) (hlane : LaneActive s.l n) {j : Nat} (hj : (j + 1) % 16 = s.sub.val) :
    (s.gateAt g).x[n].getLsbD j = s.x[n].getLsbD j := by
  rw [gateAt_lane_of_active hn g hlane, getLsbD_lanePass_outside g s.sub s.x[n] (leftOver_outside hj)]

end Lanes

theorem gateAt_gateAt (g : Gate) (s : State) : (s.gateAt g).gateAt g = s := by
  have hx : subPass g s.sub s.l (subPass g s.sub s.l s.x) = s.x := subPass_subPass g s.sub s.l s.x
  unfold State.gateAt
  rw [hx]

/-- Settles O7: lane by lane and triple by triple, the sublayer pass at (L, s). -/
theorem gateInstructionIsSublayerPass : Obligations.GateInstructionIsSublayerPass :=
  fun g s => ⟨s.gateAt g, exec_gate_instr g s, rfl, fun _ hn => ⟨gateAt_lane_of_inactive hn g,
    fun hlane => ⟨fun _ _ hh hk => readTriple_gateAt hn g hlane hh hk, fun _ _ hj => getLsbD_gateAt_leftOver hn g hlane hj⟩⟩⟩

/-- Settles O8: the formula of each gate, read off the triple at its three bits. -/
theorem gateInstructionBits : Obligations.GateInstructionBits := by
  intro s n h k hn hlane hh hk p a b c
  have bits : ∀ (g : Gate) {a' b' c' : Bool}, gate g ⟨a, b, c⟩ = ⟨a', b', c'⟩ → ∃ t, exec g.instr s = .next t ∧
      t.x[n].getLsbD p = a' ∧ t.x[n].getLsbD (p + 1) = b' ∧ t.x[n].getLsbD (p + 2) = c' := fun g _ _ _ hgate =>
    ⟨s.gateAt g, exec_gate_instr g s, readTriple_eq_mk_iff.mp ((readTriple_gateAt hn g hlane hh hk).trans hgate)⟩
  exact ⟨bits .tof (gate_tof_mk a b c), bits .mtof (gate_mtof_mk a b c), bits .fre (gate_fre_mk a b c),
    bits .mfre (gate_mfre_mk a b c)⟩

/-- Settles O9: the second pass at the same position undoes the first. -/
theorem gateInstructionTwiceRestores : Obligations.GateInstructionTwiceRestores :=
  fun g s => ⟨s.gateAt g, exec_gate_instr g s, (exec_gate_instr g (s.gateAt g)).trans (by rw [gateAt_gateAt])⟩

end Sys2Proof.Safety
end

/-! ## Selector codes inside a block pass (41_selector.md): one step at each position of a forward and of an inverse pass -/

section
namespace Sys2Proof.Machine
open Sys2Proof.Safety

/-! ### The code of a layer (R91) -/

/-- `SEL(E, L) = E[257-2L : 256-2L]`. -/
theorem sel_eq_extractLsb' (e : Block) {L : Nat} (hL : 1 ≤ L) : sel e L = e.extractLsb' (256 - 2 * L) 2 := by
  rw [sel, code, show 256 - 2 - 2 * (L - 1) = 256 - 2 * L by omega]

/-- The instruction of layer L's code is the sublayer pass with the layer's gate. -/
theorem exec_selectorCode (src : Block) {s : State} (hl : 1 ≤ s.l) :
    exec (decodeSel (src.extractLsb' (256 - 2 * s.l) 2)) s = .next (s.gateAt (layerGate src s.l)) := by
  rw [← sel_eq_extractLsb' src hl]
  exact exec_gate_instr (layerGate src s.l) s

/-- Settles O11, by evaluating the 128 codes of the constant. -/
theorem selectorSequenceOfIV : Obligations.SelectorSequenceOfIV := by
  unfold Obligations.SelectorSequenceOfIV
  decide

/-! ### Where the position moves (42_network.md R101, R106; 44_inverse.md R135, R137) -/

section Position
variable {s : State} (src : Block)

theorem State.advance_forward_pass1 {fin : Bool} (hp : s.pass = .forward fin) (hs : s.sub = 0) :
    s.advance src = { s with sub := 1 } := by
  simp [State.advance, hp, hs]

theorem State.advance_forward_pass2 {fin : Bool} (hp : s.pass = .forward fin) (hs : s.sub = 1) (hl : s.l < Config.nLayers) :
    s.advance src = { s with x := xorStep s.x (splitBlock src), l := s.l + 1, sub := 0 } := by
  simp [State.advance, State.xorSource, hp, hs, hl]

theorem State.advance_forward_last {fin : Bool} (hp : s.pass = .forward fin) (hs : s.sub = 1) (hl : s.l = Config.nLayers) :
    s.advance src = s.xorSource src := by
  simp [State.advance, hp, hs, hl]

theorem State.advance_inverse_pass2 (hp : s.pass = .inverse) (hs : s.sub = 1) : s.advance src = { s with sub := 0 } := by
  simp [State.advance, hp, hs]

theorem State.advance_inverse_pass1 (hp : s.pass = .inverse) (hs : s.sub = 0) (hl : 1 < s.l) :
    s.advance src = { s with x := xorStep s.x (splitBlock src), l := s.l - 1, sub := 1 } := by
  simp [State.advance, State.xorSource, hp, hs, hl]

theorem State.advance_inverse_last (hp : s.pass = .inverse) (hs : s.sub = 0) (hl : s.l = 1) : s.advance src = s := by
  simp [State.advance, hp, hs, hl]

end Position

theorem State.atEnd_forward {s : State} {fin : Bool} (hp : s.pass = .forward fin) :
    s.atEnd = true ↔ s.l = Config.nLayers ∧ s.sub = 1 := by
  simp [State.atEnd, hp]

theorem State.atEnd_inverse {s : State} (hp : s.pass = .inverse) : s.atEnd = true ↔ s.l = 1 ∧ s.sub = 0 := by
  simp [State.atEnd, hp]

theorem State.finishPass_forward {s : State} {fin : Bool} (hp : s.pass = .forward fin) : s.finishPass = s.finishForward fin := by
  rw [State.finishPass, hp]

theorem State.finishPass_inverse {s : State} (hp : s.pass = .inverse) : s.finishPass = s.finishInverse := by
  rw [State.finishPass, hp]

/-! ### One step inside a pass, before its last sublayer pass and at it -/

section InPassStep
variable {src : Block} {s u : State} (h : InPass src s) (hu : (s.gateAt (layerGate src s.l)).advance src = u)
include h hu

theorem InPass.step_of_not_atEnd (hend : ¬ s.atEnd = true) : step s = .next u := by
  rw [step_of_inPass h, if_neg hend, State.subStep, hu]

theorem InPass.step_of_atEnd (hend : s.atEnd = true) {v : State} (hv : u.finishPass = v) : step s = .next v := by
  rw [step_of_inPass h, if_pos hend, State.subStep, hu, hv]

end InPassStep

/-- Settles O39, by the three positions of a forward pass: pass 1, pass 2 below layer 128, and pass 2 of layer 128. -/
theorem stepRunsSelectorCode : Obligations.StepRunsSelectorCode := by
  intro s fin hp hr hl1 hl128
  have hin : InPass s.e s := { busy := hp ▸ nofun, layer := ⟨hl1, hl128⟩, source := by rw [State.passSource, hp], noReset := hr }
  have hend := State.atEnd_forward hp
  refine ⟨s.gateAt (layerGate s.e s.l), exec_selectorCode s.e hl1, fun hs => ?_, fun hs hl => ?_, fun hs hl => ?_⟩
  · exact hin.step_of_not_atEnd (State.advance_forward_pass1 s.e hp hs) (by simp [hend, hs])
  · exact hin.step_of_not_atEnd (State.advance_forward_pass2 s.e hp hs hl) (fun hlast => hl.ne (hend.mp hlast).1)
  · exact ⟨_, hin.step_of_atEnd (State.advance_forward_last s.e hp hs hl) (hend.mpr ⟨hl, hs⟩) (State.finishPass_forward hp),
      rfl, rfl, rfl, rfl⟩

/-! ### The end of an inverse pass (44_inverse.md R140, R142) -/

section InverseEnd
variable {s : State}

/-- 32 for a block below the last, UNPAD's count for the last one. -/
theorem State.recoveredCount_eq_some {r : Block} {cnt : Nat} (hle : s.icur ≤ s.nblk) (hbelow : s.icur < s.nblk → cnt = 32)
    (hlast : s.icur = s.nblk → unpad r = some cnt) : s.recoveredCount r = some cnt := by
  rcases Nat.eq_or_lt_of_le hle with heq | hlt
  · exact (if_pos heq).trans (hlast heq)
  · exact (if_neg hlt.ne).trans (congrArg some (hbelow hlt).symm)

theorem State.recoveredCount_of_last (heq : s.icur = s.nblk) (r : Block) : s.recoveredCount r = unpad r := if_pos heq

theorem State.finishInverse_of_count {cnt : Nat} (hcnt : s.recoveredCount (joinBlock s.x) = some cnt) :
    s.finishInverse =
      { s.endPass with rblk := joinBlock s.x, rcnt := cnt, icur := s.icur - 1, status := s.status.recovered } := by
  rw [State.finishInverse, hcnt]

theorem State.finishInverse_of_no_padding (hcnt : s.recoveredCount (joinBlock s.x) = none) :
    s.finishInverse = s.endPass.raiseErr .padErr := by
  rw [State.finishInverse, hcnt]

/-- The error entry neither reads nor writes the position, the pass and the count of free values. -/
theorem State.raiseErr_of_position (c : ErrCode) (s : State) (x : Lanes) (l : Nat) (sub : Fin 2) (p : Pass) (n : Nat) :
    ({ s with x := x, l := l, sub := sub, pass := p, free := n } : State).raiseErr c =
      { s.raiseErr c with x := x, l := l, sub := sub, pass := p, free := n } := by
  cases herr : s.status.err <;> simp [State.raiseErr, herr]

end InverseEnd

/-- Settles O40, by the three positions of an inverse pass: pass 2, pass 1 above layer 1, and pass 1 of layer 1, which ends it. -/
theorem stepRunsSelectorCodeBackwards : Obligations.StepRunsSelectorCodeBackwards := by
  intro s ei hp hr hl1 hl128 hpos hdepth hei
  have hsrc : s.inverseSource = .ok ei := (s.inverseSource_ok_iff ei).mpr ⟨by omega, by omega, hei⟩
  have hin : InPass ei s :=
    { busy := hp ▸ nofun, layer := ⟨hl1, hl128⟩, source := by rw [State.passSource, hp]; exact hsrc, noReset := hr }
  have hend := State.atEnd_inverse hp
  refine ⟨s.gateAt (layerGate ei s.l), exec_selectorCode ei hl1, fun hs => ?_, fun hs hl => ?_, fun hs hl => ?_⟩
  · exact hin.step_of_not_atEnd (State.advance_inverse_pass2 ei hp hs) (by simp [hend, hs])
  · exact hin.step_of_not_atEnd (State.advance_inverse_pass1 ei hp hs hl) (fun hlast => hl.ne' (hend.mp hlast).1)
  · have hstep := hin.step_of_atEnd (State.advance_inverse_last ei hp hs hl) (hend.mpr ⟨hl, hs⟩) (State.finishPass_inverse hp)
    refine ⟨fun cnt hbelow hlast hle => ?_, fun hlast hpad => ?_⟩
    · have hcnt := State.recoveredCount_eq_some (s := s.gateAt (layerGate ei s.l)) hle hbelow hlast
      exact ⟨_, hstep.trans (congrArg _ (State.finishInverse_of_count hcnt)), rfl, rfl⟩
    · have hcnt := (State.recoveredCount_of_last (s := s.gateAt (layerGate ei s.l)) hlast _).trans hpad
      have hfinish := (State.finishInverse_of_no_padding hcnt).trans (s.raiseErr_of_position .padErr _ _ _ _ _)
      exact ⟨_, s.raiseErr .padErr, hstep.trans (congrArg _ hfinish), rfl, latched_raiseErr .padErr s, rfl⟩

end Sys2Proof.Machine
end

/-! ## Network (42_network.md): lane passes and layers undone, fixed values, the zigzag, half-lane independence -/

section
namespace Sys2Proof.Machine
open Sys2Proof.Safety

/-! ### Values a lane pass fixes (40_gates.md R81 to R84, R87; R98) -/

/-- A lane is fixed by a pass whose gate fixes each of its triples. -/
theorem lanePass_eq_self {w : Nat} {g : Gate} {s : Fin 2} {v : BitVec w}
    (h : ∀ t ∈ tripleBases w s, gate g (readTriple v t) = readTriple v t) : lanePass g s v = v :=
  lane_ext s (fun t ht => (readTriple_lanePass g s v ht).trans (h t ht)) fun _ hj => getLsbD_lanePass_outside g s v hj

theorem readTriple_zero (w t : Nat) : readTriple (0#w) t = ⟨false, false, false⟩ := by
  simp [readTriple]

theorem readTriple_allOnes {w t : Nat} (ht : t + 2 < w) : readTriple (BitVec.allOnes w) t = ⟨true, true, true⟩ := by
  simp only [readTriple, BitVec.getLsbD_allOnes, Triple.mk.injEq, decide_eq_true_eq]
  omega

@[simp] theorem lanePass_zero {w : Nat} (g : Gate) (s : Fin 2) : lanePass g s (0#w) = 0#w :=
  lanePass_eq_self fun t _ => by rw [readTriple_zero, gate_zero]

/-- MFRE only moves bits, so a lane of ones is fixed. -/
@[simp] theorem lanePass_mfre_allOnes {w : Nat} (s : Fin 2) : lanePass .mfre s (BitVec.allOnes w) = BitVec.allOnes w :=
  lanePass_eq_self fun t ht => by rw [readTriple_allOnes (tripleBases_inside t ht)]; rfl

/-- Settles O13: a pass twice copies every bit, and every gate fixes 000. -/
theorem lanePassIsInvolution : Obligations.LanePassIsInvolution :=
  fun _ g s v => ⟨lanePass_lanePass g s v, lanePass_zero g s⟩

/-- Settles O14: the XOR and the two passes are undone one by one. -/
theorem layerAndInverseLayerCancel : Obligations.LayerAndInverseLayerCancel :=
  fun _ _ _ x e L => ⟨invLayer_layer x e L, layer_invLayer x e L⟩

/-! ### Layers on equal lanes (R99 to R101) -/

section EqualLanes
variable {nl w N : Nat}

theorem subPass_replicate {g : Gate} {s : Fin 2} {v : BitVec w} (hv : lanePass g s v = v) (L : Nat) :
    subPass g s L (Vector.replicate nl v) = Vector.replicate nl v := by
  ext1 n hn
  rw [subPass_getElem, Vector.getElem_replicate, hv, ite_self]

theorem xorStep_replicate (u v : BitVec w) :
    xorStep (Vector.replicate nl u) (Vector.replicate nl v) = Vector.replicate nl (u ^^^ v) := by
  ext1 n hn
  rw [xorStep_getElem, Vector.getElem_replicate, Vector.getElem_replicate, Vector.getElem_replicate]

/-- On lanes its gate fixes a layer only adds the source. -/
theorem layer_replicate {e : BitVec N} {L : Nat} {v y : BitVec w} (hv : ∀ s, lanePass (layerGate e L) s v = v)
    (he : lanesOf nl w e = Vector.replicate nl y) :
    layer (Vector.replicate nl v) e L = Vector.replicate nl (v ^^^ y) := by
  rw [layer, subPass_replicate (hv 0), subPass_replicate (hv 1), he, xorStep_replicate]

end EqualLanes

/-! ### The zero block under the zero and the all-ones source (R106, R107, R109) -/

theorem splitBlock_zero : splitBlock 0#256 = Vector.replicate 8 0#32 := by
  decide

theorem splitBlock_allOnes : splitBlock (BitVec.allOnes 256) = Vector.replicate 8 (BitVec.allOnes 32) := by
  decide

theorem layers_zero (n : Nat) : layers 0#256 n (splitBlock 0#256) = splitBlock 0#256 := by
  induction n with
  | zero => rfl
  | succ n ih =>
    rw [layers, ih, splitBlock_zero, layer_replicate (fun s => lanePass_zero _ s) splitBlock_zero, BitVec.xor_self]

/-- With all bits of E set every selector code is 11: MFRE. -/
theorem layerGate_allOnes (L : Nat) : layerGate (BitVec.allOnes 256) L = .mfre := by
  have hcode : sel (BitVec.allOnes 256) L = 3#2 := by
    apply BitVec.eq_of_getLsbD_eq
    intro i hi
    rw [sel, code, BitVec.getLsbD_extractLsb', BitVec.getLsbD_allOnes]
    rcases (by omega : i = 0 ∨ i = 1) with rfl | rfl <;> simp <;> omega
  rw [layerGate, hcode]
  rfl

/-- Under the all-ones source two layers take zero lanes to ones and back. -/
theorem layers_allOnes_even (n : Nat) : layers (BitVec.allOnes 256) (2 * n) (splitBlock 0#256) = splitBlock 0#256 := by
  have up (L : Nat) : layer (Vector.replicate 8 0#32) (BitVec.allOnes 256) L = Vector.replicate 8 (BitVec.allOnes 32) := by
    rw [layer_replicate (fun s => lanePass_zero _ s) splitBlock_allOnes, BitVec.zero_xor]
  have down (L : Nat) : layer (Vector.replicate 8 (BitVec.allOnes 32)) (BitVec.allOnes 256) L = Vector.replicate 8 0#32 := by
    rw [layer_replicate (fun s => by rw [layerGate_allOnes, lanePass_mfre_allOnes]) splitBlock_allOnes, BitVec.xor_self]
  induction n with
  | zero => rfl
  | succ n ih => rw [Nat.mul_succ, layers, layers, ih, splitBlock_zero, up, down]

/-- A block whose lanes all the layers give back is a fixed point. -/
theorem NET_eq_self {b e : Block} (h : layers e Config.nLayers (splitBlock b) = splitBlock b) : NET b e = b := by
  rw [NET_eq, h, joinBlock_splitBlock]

theorem NET_zero_zero : NET 0#256 0#256 = 0#256 := NET_eq_self (layers_zero _)

theorem NET_zero_allOnes : NET 0#256 (BitVec.allOnes 256) = 0#256 := NET_eq_self (layers_allOnes_even 64)

/-- V-NET-1. -/
theorem NET_zero_IV :
    NET 0#256 Config.IV = 0x03cf64e831310000cec0aa4b814ea238c60ee05a308001d800280063cd03250b#256 := by
  rw [NET_eq_wordLayers]
  decide +kernel

theorem NET_zero_IV_ne_zero : NET 0#256 Config.IV ≠ 0#256 := by
  rw [NET_zero_IV]
  decide

/-- Settles O18: TOF keeps zero lanes and a zero source adds nothing; the value under the IV is evaluated. -/
theorem zeroBlockUnderZeroAndIV : Obligations.ZeroBlockUnderZeroAndIV :=
  ⟨NET_zero_zero, Tests.test_invnet_of_zero, NET_zero_IV, NET_zero_IV_ne_zero⟩

/-! ### The inverse law and its limits (R107; 44_inverse.md R138) -/

/-- NET undoes INVNET under the same source (R138). -/
theorem NET_INVNET (v e : Block) : NET (INVNET v e) e = v := by
  rw [INVNET_eq, NET_eq, splitBlock_joinBlock, layers_invLayers, joinBlock_splitBlock]

/-- Under another source INVNET gives the block back only where the two sources give it the same output. -/
theorem NET_eq_of_INVNET_NET {b e e' : Block} (h : INVNET (NET b e) e' = b) : NET b e = NET b e' := by
  rw [← NET_INVNET (NET b e) e', h]

/-- Settles O16: the layers undo each other; the zero block shows the other two clauses, under the sources zero, all ones and IV. -/
theorem netAndInverseNetCancel : Obligations.NetAndInverseNetCancel := by
  refine ⟨fun b v e => ⟨INVNET_NET b e, NET_INVNET v e⟩, ⟨0#256, 0#256, BitVec.allOnes 256, by decide, ?_⟩,
    0#256, Config.IV, 0#256, fun h => ?_⟩
  · rw [NET_zero_zero, NET_zero_allOnes]
  · exact NET_zero_IV_ne_zero ((NET_eq_of_INVNET_NET h).trans NET_zero_zero)

/-! ### Half lanes (R97, R108) -/

/-- Two lanes have the same bits in their 16-bit half h. -/
def SameHalf {w : Nat} (h : Nat) (v v' : BitVec w) : Prop := ∀ j, j < 16 → v.getLsbD (16 * h + j) = v'.getLsbD (16 * h + j)

section HalfLanes
variable {nl w N h : Nat}

/-- A triple lies in one half. -/
theorem SameHalf.readTriple_eq {v v' : BitVec w} (hv : SameHalf h v v') {s : Fin 2} {k : Nat} (hk : k < 5) :
    readTriple v (tripleBase s h k) = readTriple v' (tripleBase s h k) := by
  have hs := s.isLt
  have hbase : tripleBase s h k = 16 * h + (3 * k + s.val) := Nat.add_assoc _ _ _
  rw [hbase, readTriple, readTriple, Triple.mk.injEq]
  exact ⟨hv _ (by omega), hv (3 * k + s.val + 1) (by omega), hv (3 * k + s.val + 2) (by omega)⟩

/-- A bit of a triple is one of half h only if the triple is. -/
theorem half_eq_of_mem_triple {s : Fin 2} {h' k j : Nat} (hk : k < 5) (hj : j < 16)
    (hlow : tripleBase s h' k ≤ 16 * h + j) (hhigh : 16 * h + j ≤ tripleBase s h' k + 2) : h' = h := by
  have hs := s.isLt
  unfold tripleBase at hlow hhigh
  omega

theorem SameHalf.lanePass {v v' : BitVec w} (hv : SameHalf h v v') (g : Gate) (s : Fin 2) :
    SameHalf h (lanePass g s v) (lanePass g s v') := by
  intro j hj
  by_cases hin : ∀ t ∈ tripleBases w s, 16 * h + j < t ∨ t + 2 < 16 * h + j
  · rw [getLsbD_lanePass_outside g s v hin, getLsbD_lanePass_outside g s v' hin, hv j hj]
  · push Not at hin
    obtain ⟨t, ht, hlow, hhigh⟩ := hin
    obtain ⟨h', k, -, hk, rfl⟩ := mem_tripleBases.mp ht
    obtain rfl := half_eq_of_mem_triple hk hj hlow hhigh
    have htriple : readTriple (Machine.lanePass g s v) (tripleBase s h' k) =
        readTriple (Machine.lanePass g s v') (tripleBase s h' k) := by
      rw [readTriple_lanePass g s v ht, readTriple_lanePass g s v' ht, hv.readTriple_eq hk]
    obtain ⟨ha, hb, hc⟩ := Triple.mk.inj htriple
    rcases (by omega : 16 * h' + j = tripleBase s h' k ∨ 16 * h' + j = tripleBase s h' k + 1 ∨ 16 * h' + j = tripleBase s h' k + 2)
      with hbit | hbit | hbit <;> rwa [hbit]

theorem SameHalf.xor {v v' : BitVec w} (hv : SameHalf h v v') (y : BitVec w) : SameHalf h (v ^^^ y) (v' ^^^ y) := by
  intro j hj
  rw [BitVec.getLsbD_xor, BitVec.getLsbD_xor, hv j hj]

variable {x x' : Vector (BitVec w) nl} {n : Nat} {hn : n < nl}

theorem SameHalf.subPass (hx : SameHalf h x[n] x'[n]) (g : Gate) (s : Fin 2) (L : Nat) :
    SameHalf h (subPass g s L x)[n] (subPass g s L x')[n] := by
  rw [subPass_getElem, subPass_getElem]
  split
  · exact hx.lanePass g s
  · exact hx

theorem SameHalf.layer (hx : SameHalf h x[n] x'[n]) (e : BitVec N) (L : Nat) :
    SameHalf h (layer x e L)[n] (layer x' e L)[n] := by
  rw [Machine.layer, Machine.layer, xorStep_getElem, xorStep_getElem]
  exact ((hx.subPass _ 0 L).subPass _ 1 L).xor _

theorem SameHalf.layers (hx : SameHalf h x[n] x'[n]) (e : BitVec N) (m : Nat) :
    SameHalf h (layers e m x)[n] (layers e m x')[n] := by
  induction m with
  | zero => exact hx
  | succ m ih => exact ih.layer e (m + 1)

end HalfLanes

theorem laneOf_NET (b e : Block) {n : Nat} (hn : n < 8) :
    laneOf 32 (NET b e) n = (layers e Config.nLayers (splitBlock b))[n] := by
  rw [← splitBlock_getElem _ n hn, NET_eq, splitBlock_joinBlock]

/-- Settles O17: every operation of a layer keeps agreement in a half of a lane. -/
theorem halfLanesAreIndependent : Obligations.HalfLanesAreIndependent := by
  intro b b' e n h hn _ hb
  have hin : SameHalf h (splitBlock b)[n] (splitBlock b')[n] := by
    rwa [splitBlock_getElem, splitBlock_getElem]
  rw [laneOf_NET b e hn, laneOf_NET b' e hn]
  exact hin.layers e Config.nLayers

/-! ### The zigzag (R96) -/

theorem active_add_four (L n : Nat) : active (L + 4) n = active L n := by
  rw [active, active, Nat.add_mod_right]

/-- Of the first four layers a lane sits out one: layer 2 if its number is even, layer 4 if it is odd. -/
theorem length_filter_active_four (n : Nat) : ((List.range 4).filter fun L => active (L + 1) n).length = 3 := by
  obtain hn | hn := Nat.mod_two_eq_zero_or_one n <;> simp [List.range_succ, active, hn]

/-- In every four layers a lane is active in three. -/
theorem length_filter_active (n k : Nat) : ((List.range (4 * k)).filter fun L => active (L + 1) n).length = 3 * k := by
  induction k with
  | zero => rfl
  | succ k ih =>
    have hshift : ∀ L, active (4 + L + 1) n = active (L + 1) n := fun L => by
      rw [show 4 + L + 1 = L + 1 + 4 by omega, active_add_four]
    rw [Nat.mul_succ, Nat.add_comm (4 * k) 4, List.range_add, List.filter_append, List.length_append, length_filter_active_four,
      List.filter_map, List.length_map]
    simp only [Function.comp_def, hshift, ih]
    omega

/-- Settles O12: 128 layers are 32 times four. -/
theorem zigzagLanes : Obligations.ZigzagLanes :=
  ⟨fun _ _ => active_iff_laneActive, fun n _ => length_filter_active n 32⟩

end Sys2Proof.Machine
end

/-! ## Chunk pipeline (43_chunk_pipeline.md): padding, the commands, the message hashed, the known digests -/

section
namespace Sys2Proof.Machine
open Sys2Proof.Safety

/-! ### Padding (R115, R116) -/

/-- Settles O22. -/
theorem unpadUndoesPad : Obligations.UnpadUndoesPad :=
  fun _ hr => ⟨length_padBlk hr, List.take_left, unpad_padBlk hr⟩

theorem take_padMessage (m : List Byte) : (padMessage m).take m.length = m := List.take_left

/-- The last byte of the padded message is the number of padding bytes, of which there is at least one. -/
theorem getLast?_padMessage (m : List Byte) :
    (padMessage m).getLast? = some (BitVec.ofNat 8 (Config.blockBytes - m.length % Config.blockBytes)) := by
  have hlt := Nat.mod_lt m.length (show 0 < Config.blockBytes by decide)
  rw [padMessage, padBytes, List.getLast?_append, List.getLast?_replicate, if_neg (by omega), Option.some_or]

/-- The length of a message, read from its padded form. -/
theorem length_eq_of_getLast?_padMessage {m : List Byte} {n : Byte} (hn : (padMessage m).getLast? = some n) :
    m.length = (padMessage m).length - n.toNat := by
  rw [getLast?_padMessage, Option.some.injEq] at hn
  have hcount : n.toNat = Config.blockBytes - m.length % Config.blockBytes := by
    rw [← hn]
    exact Nat.mod_eq_of_lt (Nat.lt_of_le_of_lt (Nat.sub_le _ _) (by decide))
  rw [hcount, padMessage, padBytes, List.length_append, List.length_replicate, Nat.add_sub_cancel]

theorem padMessage_injective : Function.Injective padMessage := by
  intro m m' h
  have hlen : m.length = m'.length := by
    rw [length_eq_of_getLast?_padMessage (getLast?_padMessage m), h]
    exact (length_eq_of_getLast?_padMessage (h ▸ getLast?_padMessage m)).symm
  rw [← take_padMessage m, ← take_padMessage m', h, hlen]

/-- Settles O24: the last byte gives the length of the message, and that many bytes of the padded message are it. -/
theorem paddingIsInjective : Obligations.PaddingIsInjective :=
  ⟨fun _ _ h => padMessage_injective h, fun m => ⟨take_padMessage m, length_padMessage m, rfl, _, getLast?_padMessage m,
    length_eq_of_getLast?_padMessage (getLast?_padMessage m)⟩⟩

/-! ### NOP, RESET and UPDATE below the 32nd byte (R120, R121, R124) -/

/-- Settles O26: an illegal word is one of those of R66. -/
theorem nopChangesNothing : Obligations.NopChangesNothing := by
  refine ⟨fun _ => rfl, decode_encode .nop, fun w s rest hop hdata hidle hin => ?_⟩
  exact stepRaisesIllegalCommand s w rest hidle hin (Or.inr ⟨by omega, hdata⟩)

/-- Settles O27. -/
theorem resetCommandRestoresReset : Obligations.ResetCommandRestoresReset :=
  fun s => ⟨s.toReset, rfl, atReset_toReset s, rfl, rfl⟩

/-- Settles O29. -/
theorem updateAppendsByte : Obligations.UpdateAppendsByte :=
  fun s b hfin hlen => ⟨_, exec_update_of_room hfin hlen b, rfl, fun a => Memory.read_write s.buf s.buflen a b⟩

/-! ### The commands with a block step (R117, R121, R122) -/

section BlockStep
variable {s : State} (fin : Bool) (b : Block)

/-- The block step on a log with room logs the encoding source of the block. -/
theorem State.blockStep_of_room (hroom : s.nblk < s.logDepth) :
    (s.blockStep fin b).nblk = s.nblk + 1 ∧
    (s.blockStep fin b).status = { s.status with fin := s.status.fin || fin } ∧
    ∀ a, Memory.read (s.blockStep fin b).log a = if a = s.nblk then some s.e else Memory.read s.log a := by
  refine ⟨by rw [State.blockStep_nblk, if_pos hroom], by simp [State.blockStep_status, hroom], fun a => ?_⟩
  rw [State.blockStep_log, if_pos hroom, Memory.read_write]

/-- The block step on a full log leaves it alone and notes the overflow. -/
theorem State.blockStep_of_full (hfull : ¬ s.nblk < s.logDepth) :
    (s.blockStep fin b).nblk = s.nblk ∧
    (s.blockStep fin b).status = { s.status with fin := s.status.fin || fin, lovf := true } ∧
    (s.blockStep fin b).log = s.log :=
  ⟨by rw [State.blockStep_nblk, if_neg hfull], by simp [State.blockStep_status, hfull],
    by rw [State.blockStep_log, if_neg hfull]⟩

/-- What no block step changes, the sequencer being idle after it. -/
theorem State.blockStep_frame :
    (s.blockStep fin b).pass = .idle ∧ (s.blockStep fin b).logDepth = s.logDepth ∧ (s.blockStep fin b).icur = s.icur ∧
    (s.blockStep fin b).rblk = s.rblk ∧ (s.blockStep fin b).rcnt = s.rcnt ∧ (s.blockStep fin b).input = s.input := by
  simp

end BlockStep

/-- Settles O30: the block step on the 31 waiting bytes and the one stored behind them. -/
theorem updateCompletesBlock : Obligations.UpdateCompletesBlock := by
  intro s b bs hfin hlen hbs hbuf
  refine ⟨_, exec_update_of_full hfin hlen hbs hbuf b, State.blockStep_e .., State.blockStep_buflen .., fun hroom => ?_,
    fun hfull => ?_, fun a => ?_, State.blockStep_frame ..⟩
  · simpa using State.blockStep_of_room false (blockOfBytes (bs ++ [b]))
      (s := { s with buf := Memory.write s.buf 31 b, buflen := 32 }) hroom
  · simpa using State.blockStep_of_full false (blockOfBytes (bs ++ [b]))
      (s := { s with buf := Memory.write s.buf 31 b, buflen := 32 }) hfull
  · rw [State.blockStep_buf]
    exact Memory.read_write s.buf 31 a b

/-- Settles O31: the block step on the padded live bytes. -/
theorem finalizeHashesLastBlock : Obligations.FinalizeHashesLastBlock := by
  intro s r hfin hlen hr hbuf
  refine ⟨_, exec_finalize_of_buffered hfin hlen hr hbuf, State.blockStep_e .., State.blockStep_buflen .., fun hroom => ?_,
    fun hfull => ?_, State.blockStep_buf .., if_pos (by simp [State.blockStep_status]), State.blockStep_frame ..⟩
  · simpa using State.blockStep_of_room true (blockOfBytes (padBlk r)) hroom
  · simpa using State.blockStep_of_full true (blockOfBytes (padBlk r)) hfull

/-- Settles O32: both raise STATE_ERR, and neither is RESET, the only one to change a valid digest. -/
theorem finalizedInstanceIsTerminal : Obligations.FinalizedInstanceIsTerminal := by
  intro s b hfin
  have hupdate := exec_update_of_finalized hfin b
  have hfinalize := exec_finalize_of_finalized hfin
  exact ⟨⟨_, hupdate, latched_raiseErr .stateErr s, digestIsImmutable (.update b) s _ hfin nofun hupdate⟩,
    ⟨_, hfinalize, latched_raiseErr .stateErr s, digestIsImmutable .finalize s _ hfin nofun hfinalize⟩⟩

/-! ### The known digests (R128) -/

/-- A message of less than a block is hashed in one block step, its padding under the IV. -/
theorem HASH_of_length_lt {m : List Byte} (hm : m.length < Config.blockBytes) :
    HASH m = NET (blockOfBytes (padBlk m)) Config.IV := by
  have hzero : m.length / Config.blockBytes = 0 := Nat.div_eq_of_lt hm
  have hblock := messageBlock_last m
  rw [hzero, lastBytes, hzero] at hblock
  rw [HASH, blockCount, hzero, chainAt, hblock, chainAt]
  rfl

/-- V-HASH-1. -/
theorem HASH_nil : HASH [] = 0xe2393350a2359d10bcf03be2a9aecb17f7a920289bd8e1b8e02a72e8f82e2125#256 := by
  rw [HASH_of_length_lt (by decide), NET_eq_wordLayers]
  decide +kernel

theorem HASH_hello_world : HASH [0x48, 0x65, 0x6c, 0x6c, 0x6f, 0x2c, 0x20, 0x77, 0x6f, 0x72, 0x6c, 0x64, 0x21] =
    0x06fb83ff2a3c844c1fee057467373901866d52a5be3c131d1302106f825400a0#256 := by
  rw [HASH_of_length_lt (by decide), NET_eq_wordLayers]
  decide +kernel

/-- Settles O58: each message is one block under the IV. -/
theorem knownDigests : Obligations.KnownDigests :=
  ⟨HASH_nil, HASH_of_length_lt (by decide), HASH_hello_world⟩

/-! ### The inverse cursor while a message is hashed (10_state.md R18) -/

/-- A program without RESET, INV_BEGIN and INV_STEP leaves ICUR alone. -/
theorem runCommands_icur {is : List Instr} (his : ∀ i ∈ is, i ≠ .reset ∧ i ≠ .invBegin ∧ i ≠ .invStep) {s t : State}
    (h : runCommands is s = .next t) : t.icur = s.icur := by
  induction is generalizing s with
  | nil => cases h; rfl
  | cons i is ih =>
    obtain ⟨⟨hreset, hbegin, hstep⟩, htail⟩ := List.forall_mem_cons.mp his
    rw [runCommands] at h
    split at h
    · next u hu => exact (ih htail h).trans ((exec_next_iff.mp hu).cursor_eq hreset hbegin hstep).1
    · cases h
    · cases h

/-- RESET clears ICUR, and hashing a message leaves it so. -/
theorem icur_of_run_callNewFunction {m : List Byte} {s t : State} (h : runCommands (callNewFunction m) s = .next t) :
    t.icur = 0 := by
  refine (runCommands_icur (is := callUpdate m ++ [.finalize]) (s := s.toReset) (fun i hi => ?_) h).trans s.toReset_icur
  rcases List.mem_append.mp hi with hupdate | hfinalize
  · obtain ⟨b, -, rfl⟩ := List.mem_map.mp hupdate
    exact ⟨nofun, nofun, nofun⟩
  · obtain rfl := List.mem_singleton.mp hfinalize
    exact ⟨nofun, nofun, nofun⟩

end Sys2Proof.Machine

namespace Sys2Proof.Safety
open Sys2Proof.Machine

/-! ### The message hashed, and a log too short for it (R117, R119; 44_inverse.md R141) -/

/-- Settles O54. -/
theorem commandsComputeHash : Obligations.CommandsComputeHash := by
  intro s m hdepth
  obtain ⟨t, hrun, ht, herr, -⟩ := run_callNewFunction hdepth m
  exact ⟨t, hrun, ht.finalized, herr, ht.portDigest_eq⟩

/-- With the log too short for the message it is full and LOVF = 1, so that the inverse path is not armed. -/
theorem Hashed.chain_overflowed {m : List Byte} {s : State} (h : Hashed m s) (hdepth : s.logDepth < blockCount m) :
    s.nblk = s.logDepth ∧ s.status.lovf = true ∧ s.status.ia = false := by
  obtain ⟨hnblk, hlovf⟩ := h.follows.counted
  rw [blocksDone_finalized h.finalized] at hnblk hlovf
  rw [decide_eq_true hdepth] at hlovf
  refine ⟨by omega, hlovf, Bool.eq_false_iff.mpr fun hia => ?_⟩
  rw [(h.regular.ia hia).2] at hlovf
  cases hlovf

/-- Settles O56: INV_BEGIN finds FIN = 1 and LOVF = 1, and LOG_UNAVAIL is the first error latched. -/
theorem longMessageHashesWithoutInverse : Obligations.LongMessageHashesWithoutInverse := by
  intro s m hdepth hlong
  obtain ⟨t, hhash, ht, herr, hsame⟩ := run_callNewFunction hdepth m
  obtain ⟨hnblk, hlovf, hia⟩ := ht.chain_overflowed (hsame ▸ hlong)
  have hbegin := exec_invBegin_of_overflow ht.finalized hlovf
  have hdigest := digestIsImmutable .invBegin t _ ht.finalized nofun hbegin
  have hprogram : [.reset] ++ m.map .update ++ [.finalize, .invBegin] = callNewFunction m ++ [.invBegin] :=
    (List.append_assoc _ [Instr.finalize] [Instr.invBegin]).symm
  have hrun : runCommands ([.reset] ++ m.map .update ++ [.finalize, .invBegin]) s = .next (t.raiseErr .logUnavail) := by
    rw [hprogram, runCommands_append hhash, runCommands_cons hbegin, runCommands_nil]
  refine ⟨_, hrun, hdigest.trans ht.portDigest_eq, ?_, ?_, ?_, State.raiseErr_status_err .., ?_, ?_⟩
  · rw [State.raiseErr_nblk, hnblk, hsame]
  · rw [State.raiseErr_status_lovf, hlovf]
  · rw [State.raiseErr_status_ia, hia]
  · rw [State.raiseErr_status_errcode, herr]
    rfl
  · rw [State.raiseErr_icur, icur_of_run_callNewFunction hhash]

end Sys2Proof.Safety
end

/-! ## The inverse path (44_inverse.md): the pass order, UNPAD, INVERT, and the commands INV_BEGIN and INV_STEP -/

section
namespace Sys2Proof.Machine
open Sys2Proof.Safety

/-! ### The order of the two passes (R135, R136) -/

/-- Settles O19: two lanes are evaluated, and pass 2 before pass 1 undoes every layer. -/
theorem passOrderMattersForInverse : Obligations.PassOrderMattersForInverse := by
  refine ⟨by decide, by decide, ?_⟩
  rw [invLayer_layer]
  decide

/-! ### What UNPAD accepts (R140) -/

/-- The bytes of a block from byte `k` on. -/
theorem mem_drop_bytesOf {b : Block} {k : Nat} {v : Byte} :
    v ∈ (bytesOf b).drop k ↔ ∃ j, k ≤ j ∧ j ≤ 31 ∧ byteOf b j = v := by
  rw [bytesOf, ← List.map_drop, List.range_eq_range', List.drop_range', List.mem_map]
  refine exists_congr fun j => ?_
  rw [List.mem_range'_1, ← and_assoc]
  exact and_congr_left fun _ => by omega

/-- UNPAD reads the count from the last byte, and the other bytes it counts are equal to that one. -/
theorem unpad_eq_some_iff {b : Block} {c : Nat} : unpad b = some c ↔
    (1 ≤ (byteOf b 31).toNat ∧ (byteOf b 31).toNat ≤ 32) ∧
    (∀ j, 32 - (byteOf b 31).toNat ≤ j → j ≤ 31 → byteOf b j = byteOf b 31) ∧ c = 32 - (byteOf b 31).toNat := by
  have hbytes : ((bytesOf b).drop (32 - (byteOf b 31).toNat)).all (· == byteOf b 31) = true ↔
      ∀ j, 32 - (byteOf b 31).toNat ≤ j → j ≤ 31 → byteOf b j = byteOf b 31 := by
    simp only [List.all_eq_true, beq_iff_eq, mem_drop_bytesOf]
    exact ⟨fun h j hfrom hto => h _ ⟨j, hfrom, hto, rfl⟩, fun h _ ⟨j, hfrom, hto, hv⟩ => hv ▸ h j hfrom hto⟩
  rw [unpad, ← hbytes]
  split
  · next hrange => exact iff_of_false nofun fun h => by omega
  · next hrange =>
    rw [Option.ite_none_right_eq_some, Option.some.injEq, eq_comm (a := c)]
    exact (and_iff_right (by omega)).symm

/-- Settles O23: the n that all the last n bytes have is the last byte's. -/
theorem unpadAcceptsExactlyPadding : Obligations.UnpadAcceptsExactlyPadding := by
  intro b c
  rw [unpad_eq_some_iff]
  constructor
  · rintro ⟨⟨hpos, hle⟩, hbytes, hc⟩
    exact ⟨_, hpos, hle, hc, fun j hfrom hto => congrArg BitVec.toNat (hbytes j hfrom hto)⟩
  · rintro ⟨n, hpos, hle, hc, hbytes⟩
    obtain rfl := hbytes 31 (by omega) (Nat.le_refl 31)
    exact ⟨⟨hpos, hle⟩, fun j hfrom hto => BitVec.eq_of_toNat_eq (hbytes j hfrom hto), hc⟩

/-! ### INVERT (R138, R139) -/

/-- The last block is undone first, and its encoding source is the value to invert for the blocks before it. -/
theorem INVERT_concat (d e : Block) (es : List Block) : INVERT d (es ++ [e]) = INVERT e es ++ [INVNET d e] := by
  rw [INVERT, List.reverse_concat, invertDown, List.reverse_cons, INVERT]

/-- The first `n` blocks of a message, from the chain up to them. -/
theorem INVERT_chainAt (m : List Byte) (n : Nat) :
    INVERT (chainAt m n) ((List.range n).map (chainAt m)) = (List.range n).map (messageBlock m) := by
  induction n with
  | zero => rfl
  | succ n ih =>
    rw [List.range_succ, List.map_append, List.map_append, List.map_singleton, List.map_singleton, INVERT_concat, ih,
      INVNET_chainAt]

/-- Settles O25: HASH is the end of the chain. -/
theorem invertRecoversBlocks : Obligations.InvertRecoversBlocks :=
  ⟨fun _ => rfl, INVERT_concat, fun m => INVERT_chainAt m (blockCount m)⟩

/-! ### INV_BEGIN and INV_STEP (R141, R142) -/

/-- Settles O34, by the guards in their order. -/
theorem invBeginArmsInversePath : Obligations.InvBeginArmsInversePath := fun s =>
  ⟨fun hfin => ⟨_, exec_invBegin_of_open hfin, latched_raiseErr .stateErr s⟩,
    fun hfin hlovf => ⟨_, exec_invBegin_of_overflow hfin hlovf, latched_raiseErr .logUnavail s⟩,
    exec_invBegin_of_chain⟩

section Reads
variable {s : State}

/-- The value to invert: the digest for the last block, the encoding source of the next block for the others. -/
theorem State.inverseInput_eq_ok {v : Block} (hle : s.icur ≤ s.nblk) (hdepth : s.nblk ≤ s.logDepth)
    (hlast : s.icur = s.nblk → v = s.e) (hbelow : s.icur < s.nblk → Memory.read s.log s.icur = some v) :
    s.inverseInput = .ok v := by
  rw [State.inverseInput_ok_iff]
  rcases Nat.eq_or_lt_of_le hle with heq | hlt
  · exact Or.inl ⟨heq, hlast heq⟩
  · exact Or.inr ⟨hlt, Nat.lt_of_lt_of_le hlt hdepth, hbelow hlt⟩

/-- The encoding source of the block to recover. -/
theorem State.inverseSource_eq_ok {ei : Block} (hpos : 0 < s.icur) (hle : s.icur ≤ s.logDepth)
    (hei : Memory.read s.log (s.icur - 1) = some ei) : s.inverseSource = .ok ei :=
  (s.inverseSource_ok_iff ei).mpr ⟨hpos.ne', by omega, hei⟩

end Reads

/-- Settles O35: both reads answer, and the block has its count. -/
theorem invStepRecoversBlock : Obligations.InvStepRecoversBlock := by
  intro s v ei cnt hia hpos hle hdepth hei hlast hbelow hpad hcount
  have hv := State.inverseInput_eq_ok hle hdepth hlast hbelow
  have hsrc := State.inverseSource_eq_ok hpos (hle.trans hdepth) hei
  have hcnt := State.recoveredCount_eq_some hle hcount hpad
  exact ⟨_, exec_invStep_of_count hia hpos.ne' hv hsrc hcnt, rfl, rfl, rfl, rfl, rfl, rfl, rfl, rfl, rfl, rfl, rfl, rfl⟩

/-- Settles O36: the guard of INV_STEP, and UNPAD's refusal of the last block, after which the error entry writes the
latch as it would before the pass. -/
theorem invStepErrors : Obligations.InvStepErrors := by
  intro s
  refine ⟨fun h => ⟨_, exec_invStep_of_exhausted h, latched_raiseErr .stateErr s⟩, fun ei hia hpos hlast hdepth hei hpad => ?_⟩
  have hv := State.inverseInput_eq_ok hlast.le hdepth (fun _ => rfl) (fun hlt => absurd hlast hlt.ne)
  have hsrc := State.inverseSource_eq_ok hpos (hlast.le.trans hdepth) hei
  have hcnt := (State.recoveredCount_of_last hlast _).trans hpad
  have hraise : s.endPass.raiseErr .padErr = _ := s.raiseErr_of_position .padErr _ _ _ _ _
  exact ⟨_, s.raiseErr .padErr, (exec_invStep_of_no_padding hia hpos.ne' hv hsrc hcnt).trans (congrArg _ hraise),
    latched_raiseErr .padErr s, rfl, rfl⟩

end Sys2Proof.Machine
end

/-! ## Exceptions (60_exceptions.md): the error entry, the latch and what it blocks -/

section
namespace Sys2Proof.Safety
open Sys2Proof.Machine

/-! ### A latched error blocks nothing (R157) -/

section Latch
variable {s s' t : State}

theorem SameButLatch.symm (h : SameButLatch s t) : SameButLatch t s := by
  rw [← h]
  rfl

theorem SameButLatch.trans (hst : SameButLatch s s') (hst' : SameButLatch s' t) : SameButLatch s t := by
  rw [← hst', ← hst]
  rfl

/-- The error entry writes the latch alone (R156). -/
theorem sameButLatch_raiseErr (c : ErrCode) (s : State) : SameButLatch s (s.raiseErr c) := by
  unfold State.raiseErr
  split <;> rfl

variable (h : SameButLatch s s')
include h

/-- Each error entry leaves its state up to the latch, so the two may take different branches. -/
theorem SameButLatch.raiseErr (c : ErrCode) : SameButLatch (s.raiseErr c) (s'.raiseErr c) :=
  ((sameButLatch_raiseErr c s).symm.trans h).trans (sameButLatch_raiseErr c s')

theorem SameButLatch.endPass : SameButLatch s.endPass s'.endPass := by
  rw [← h]
  rfl

theorem SameButLatch.blockStep (fin : Bool) (b : Block) : SameButLatch (s.blockStep fin b) (s'.blockStep fin b) := by
  rw [← h, State.blockStep_eq, State.blockStep_eq]
  unfold SameButLatch
  dsimp only
  split <;> cases fin <;> rfl

/-- What an instruction does under one latch it does under every other, up to the latch: no guard reads it. -/
theorem SameButLatch.effect {i : Instr} (he : Effect s i t) : ∃ t', Effect s' i t' ∧ SameButLatch t t' := by
  obtain ⟨err, code, rfl⟩ : ∃ err code, s' = { s with status := { s.status with err := err, errcode := code } } :=
    ⟨_, _, Eq.symm h⟩
  cases he with
  | gate g => exact ⟨_, .gate g, rfl⟩
  | nop => exact ⟨_, .nop, h⟩
  | reset => exact ⟨_, .reset, rfl⟩
  | updateRefused b hfin => exact ⟨_, .updateRefused b hfin, h.raiseErr _⟩
  | updateAppends b hfin hlen => exact ⟨_, .updateAppends b hfin hlen, rfl⟩
  | updateCompletes b bs hfin hlen hbs hbuf =>
    have hstored : SameButLatch { s with buf := Memory.write s.buf 31 b }
        { s with buf := Memory.write s.buf 31 b, status := { s.status with err := err, errcode := code } } := rfl
    exact ⟨_, .updateCompletes b bs hfin hlen hbs hbuf, hstored.blockStep _ _⟩
  | finalizeRefused hfin => exact ⟨_, .finalizeRefused hfin, h.raiseErr _⟩
  | finalizeHashes r hfin hlen hr hbuf => exact ⟨_, .finalizeHashes r hfin hlen hr hbuf, h.blockStep _ _⟩
  | invBeginRefused hfin => exact ⟨_, .invBeginRefused hfin, h.raiseErr _⟩
  | invBeginOverflow hfin hlovf => exact ⟨_, .invBeginOverflow hfin hlovf, h.raiseErr _⟩
  | invBeginArms hfin hlovf => exact ⟨_, .invBeginArms hfin hlovf, rfl⟩
  | invStepRefused hend => exact ⟨_, .invStepRefused hend, h.raiseErr _⟩
  | invStepNoPadding v ei hia hpos hv hei hcnt =>
    exact ⟨_, .invStepNoPadding v ei hia hpos hv hei hcnt, h.endPass.raiseErr _⟩
  | invStepRecovers v ei cnt hia hpos hv hei hcnt =>
    exact ⟨_, .invStepRecovers v ei cnt hia hpos hv hei hcnt, rfl⟩

end Latch

/-- Settles O50: an instruction has the same effect from both states. -/
theorem latchedErrorBlocksNothing : Obligations.LatchedErrorBlocksNothing := by
  intro i s s' t h hexec
  obtain ⟨t', he, ht⟩ := h.effect (exec_next_iff.mp hexec)
  exact ⟨t', exec_next_iff.mpr he, ht⟩

end Sys2Proof.Safety
end

section
namespace Sys2Proof.Machine

/-! ### The latch and its codes (R150, R156 to R158) -/

/-- Settles O49: an instruction other than RESET keeps the latch, or finds it clear. -/
theorem errorLatchIsSticky : Obligations.ErrorLatchIsSticky := by
  intro i s t hexec hreset herr
  obtain ⟨herr', hcode⟩ | ⟨hclear, -⟩ := (exec_next_iff.mp hexec).latch_cases hreset
  · exact ⟨herr'.trans herr, hcode⟩
  · exact absurd (hclear.symm.trans herr) Bool.false_ne_true

/-- Settles O33. -/
theorem firstErrorIsLatched : Obligations.FirstErrorIsLatched :=
  ⟨latched_raiseErr, rfl, rfl, rfl, rfl⟩

end Sys2Proof.Machine
end
